-- ==== Sys2Proof/Word.lean ====
section
/-!
DEFINITION. The two kinds of value the block handles: the 64-bit word of the command port (R11, R71) and the
number `Num` of its arithmetic (R12). Here stand the types only; the arithmetic is in `Machine/Numeric.lean`.
-/

namespace Sys2Proof

/-- A command or response word, 64 bits, bit 0 the least significant (R11). -/
abbrev Word := BitVec 64

/-- One byte of a byte-wide transport of the port (R53). -/
abbrev Byte := BitVec 8

/-- A value of the specification's type `Num` (R12): a sample, a coefficient, a filter output, an energy or the
threshold factor. It is the data that IEEE 754 binary64 and the exact rationals (the two instances R13 names) have
between them: a rational, and beside it binary64's own `-0.0`, its infinities and its NaNs.
`rat 0` is the `+0.0` of binary64; `nan neg f` has the fraction field `f + 1`, so every `NumVal` of this form is a
NaN (a zero fraction would be an infinity). -/
inductive NumVal where
  | rat (q : Rat)
  | negZero
  | inf (neg : Bool)
  | nan (neg : Bool) (fractionLess1 : Fin 0xFFFFFFFFFFFFF)
  deriving DecidableEq, Repr, Inhabited

/-- The three arithmetic operations of `NUM` (R12): which one a NaN came from. -/
inductive NumOp where
  | add | sub | mul
  deriving DecidableEq, Repr, Inhabited

end Sys2Proof
end

