-- ==== Sys2Proof/Config.lean ====
section
/-!
DEFINITION. The parameters a piece of hardware is built with (R8) and the values the specification leaves open.
The parameters are one plain record, `Config`, whose fields are the rows of R8's table; State carries it, no command
writes it, and so a statement about every state is a statement about every choice of the parameters. What the
specification leaves open is an opaque constant: nothing can be proved of it beyond its type.
-/

namespace Sys2Proof

/-- The numeric type `NUM` of R12 as a record of total functions, over `NumVal` for every instance. -/
structure NumOps where
  zero : NumVal
  add : NumVal → NumVal → NumVal
  sub : NumVal → NumVal → NumVal
  mul : NumVal → NumVal → NumVal
  /-- Strictly greater. -/
  gt : NumVal → NumVal → Bool
  /-- Less or equal, used only to sort. -/
  le : NumVal → NumVal → Bool
  finite : NumVal → Bool
  enc : NumVal → Word
  dec : Word → NumVal
  deriving Inhabited

/-- Which instance of `NUM` the hardware has: R13's two, or any other one (`NUM` is an OPEN parameter, R8, D5). -/
inductive NumInst where
  /-- `NUM_BINARY64`, the reference hardware instance (R13 (a)). -/
  | binary64
  /-- `NUM_EXACT`, exact rationals (R13 (b)). -/
  | exact
  /-- An instance the specification does not name (single precision, fixed point): its record is the free value
  `Config.otherNum`. -/
  | other
  deriving DecidableEq, Repr, Inhabited

/-- The coefficient 5-tuple `(b0, b1, b2, a1, a2)` of one second-order section (R8, R51, R120). -/
structure Sos where
  b0 : NumVal
  b1 : NumVal
  b2 : NumVal
  a1 : NumVal
  a2 : NumVal
  deriving DecidableEq, Repr, Inhabited

/-- The parameters of R8, one field per row of its table (but `NCH`, which R8 says is run-time state). -/
structure Config where
  /-- `NUM`. -/
  num : NumInst
  /-- `NCH_MAX`, the channels the hardware is built for. -/
  nchMax : Nat
  /-- `DECIM`, written D: one FIR output per D inputs. -/
  decim : Nat
  /-- `FIR_TAPS`, written T. -/
  firTaps : Nat
  /-- `FIR_COEF[0 .. T-1]`, the contents of the store FIRC (R50). -/
  firCoef : List NumVal
  /-- `IIR_SECTIONS`, written S. -/
  iirSections : Nat
  /-- `SOS_COEF[c][s]`, the contents of the store SOSC (R50, R51). -/
  sosCoef : List (List Sos)
  /-- `ENERGY_WINDOW`, written W. -/
  energyWindow : Nat
  /-- `TF_RESET`, the threshold factor after INIT and after DETRST. -/
  tfReset : NumVal
  /-- `HALF_SCALE`, a parameter of the host's (R226); no command of the block reads it. -/
  halfScale : NumVal
  deriving DecidableEq, Repr, Inhabited

/-- The 63 low bits of a finite binary64 pattern and its sign (R13 (a)): exactly the finite values. -/
structure FiniteBits where
  neg : Bool
  magnitude : Fin 0x7FF0000000000000
  deriving DecidableEq, Repr, Inhabited

namespace Config

/-! ### OPEN parameters of the reset machine (R8: no default). Only `State.reset` names them. -/

/-- T - 1 of the reset machine, within R8's bounds 1 .. 65535. -/
opaque firTapsLess1 : Fin 65535

/-- `FIR_COEF[i]` of the reset machine, a finite value. -/
opaque firCoefBits : Nat → FiniteBits

/-- S - 1 of the reset machine, within R8's bounds 1 .. 13107. -/
opaque iirSectionsLess1 : Fin 13107

/-- Component `k` (b0, b1, b2, a1, a2) of `SOS_COEF[c][s]` of the reset machine, a finite value. -/
opaque sosCoefBits : Nat → Nat → Fin 5 → FiniteBits

/-- `TF_RESET` of the reset machine: the binary64 magnitude of a finite value greater than zero, less 1. -/
opaque tfResetLess1 : Fin 0x7FEFFFFFFFFFFFFF

/-! ### Free values: what the specification does not state -/

/-- The sign of the NaN that an operation of `NUM_BINARY64` gives on these operands (G2 gives no pattern). -/
opaque nanSign : NumOp → NumVal → NumVal → Bool

/-- The fraction field, less 1, of the NaN that an operation of `NUM_BINARY64` gives on these operands. -/
opaque nanFraction : NumOp → NumVal → NumVal → Fin 0xFFFFFFFFFFFFF

/-- `NUM_EXACT.enc` of a rational that binary64 does not represent: R13 (b) does not define it. -/
opaque exactEncFree : Rat → Word

/-- `NUM_EXACT.dec` of a word that is no finite binary64 pattern: R13 (b) does not define it. -/
opaque exactDecFree : Word → Rat

/-- The record of a numeric instance the specification does not name (R8: `NUM` is OPEN). -/
opaque otherNum : NumOps

/-- The host's scaling `r / HALF_SCALE - 1.0` (R226) in the arithmetic of such an instance. -/
opaque otherScale : Nat → NumVal → NumVal

/-- The word of a decimal literal (R81) in such an instance: the `Num` nearest to it. -/
opaque otherLiteral : Rat → Word

/-- The channel CHK's sort and comparisons select, if any, where a value they work on is not finite: R14 and U4
say that their results are then not specified. Operands: the mask, the threshold factor, the energy vector. -/
opaque freeDecision : Word → NumVal → List NumVal → Option Nat

end Config

end Sys2Proof
end

