-- ==== Sys2Proof/Machine/Numeric.lean ====
section
/-!
DEFINITION. The arithmetic of the numeric type `NUM` (R12) for its instances (R13). Every operation of binary64 is
the exact rational result rounded once to nearest, ties to even (R13 (a)); the patterns, the rounding and the rules for
zeros, infinities and NaNs are IEEE 754's, which the specification takes from general knowledge (G2).
-/

namespace Sys2Proof

/-! ### The magnitude of a binary64 pattern (R13 (a)): bits 62:0, exponent 62:52, fraction 51:0 -/

/-- The magnitude field of the infinities: the least magnitude that is not finite. -/
def b64InfMagnitude : Nat := 0x7FF0000000000000

/-- The exponent field of a magnitude. -/
def b64Exponent (m : Nat) : Nat := m / 2 ^ 52

/-- The significand of a finite magnitude: its fraction, with the hidden bit where the exponent field is not 0. -/
def b64Significand (m : Nat) : Nat :=
  if b64Exponent m = 0 then m % 2 ^ 52 else 2 ^ 52 + m % 2 ^ 52

/-- The binary weight of the significand's last bit, counted up from 2^-1074. -/
def b64Scale (m : Nat) : Nat := b64Exponent m - 1

/-- The value of a finite magnitude: significand times 2^(scale - 1074). -/
def b64Value (m : Nat) : Rat :=
  if 1074 ≤ b64Scale m then mkRat (b64Significand m * 2 ^ (b64Scale m - 1074)) 1
  else mkRat (b64Significand m) (2 ^ (1074 - b64Scale m))

/-- `n / d` rounded to the nearest natural, ties to even. -/
def divNearestEven (n d : Nat) : Nat :=
  let q := n / d
  let r := n % d
  if d < 2 * r then q + 1
  else if 2 * r < d then q
  else if q % 2 = 0 then q else q + 1

/-- The floor of the base-2 logarithm of `n / d`, both positive, counted up from `2^-1074`: the natural `e` with
`2^(e - 1074) ≤ n / d < 2^(e - 1073)`, and 0 where `n / d < 2^-1073`. -/
def b64Log (n d : Nat) : Nat :=
  let e := (n * 2 ^ 1074).log2 - d.log2
  if n * 2 ^ 1074 < d * 2 ^ e then e - 1 else e

/-- The scale (see `b64Scale`) at which `n / d` is rounded: 52 below its leading bit, and not below 0. -/
def b64RoundScale (n d : Nat) : Nat := b64Log n d - 52

/-- The magnitude nearest to `n / d`, ties to even. A significand that rounds up to the next power of two carries
into the exponent by itself; a result of `b64InfMagnitude` or above is an overflow. -/
def b64RoundMagnitude (n d : Nat) : Nat :=
  if n = 0 then 0
  else
    let e := b64RoundScale n d
    let sig := divNearestEven (n * 2 ^ 1074) (d * 2 ^ e)
    e * 2 ^ 52 + sig

/-- The magnitude nearest to a rational's absolute value. -/
def b64Magnitude (q : Rat) : Nat := b64RoundMagnitude q.num.natAbs q.den

/-! ### Values and words -/

/-- The rational a finite value stands for; 0 for the others, which no rule asks. -/
def NumVal.toRat : NumVal → Rat
  | .rat q => q
  | .negZero => 0
  | .inf _ => 0
  | .nan _ _ => 0

/-- The value is a number: no infinity and no NaN. -/
def NumVal.isFinite : NumVal → Bool
  | .rat _ => true
  | .negZero => true
  | .inf _ => false
  | .nan _ _ => false

/-- The sign of the value: `true` for negative. -/
def NumVal.isNeg : NumVal → Bool
  | .rat q => decide (q < 0)
  | .negZero => true
  | .inf neg => neg
  | .nan neg _ => neg

/-- The finite value of a magnitude with a sign, and the infinity for any magnitude above (no NaN). -/
def b64OfMagnitude (neg : Bool) (m : Nat) : NumVal :=
  if b64InfMagnitude ≤ m then .inf neg
  else if m = 0 then (if neg then .negZero else .rat 0)
  else .rat (if neg then -b64Value m else b64Value m)

/-- A rational rounded to binary64: to nearest, ties to even, infinity on overflow, a zero of its own sign on
underflow (R13 (a)). -/
def b64Round (q : Rat) : NumVal := b64OfMagnitude (decide (q < 0)) (b64Magnitude q)

/-- A word from its sign bit and its magnitude field. -/
def b64Word (neg : Bool) (m : Nat) : Word := BitVec.ofNat 64 (neg.toNat * 2 ^ 63 + m)

/-- `NUM_BINARY64.enc`: the value's bit pattern (R13 (a)). -/
def b64Enc : NumVal → Word
  | .rat q => b64Word (decide (q < 0)) (min (b64Magnitude q) b64InfMagnitude)
  | .negZero => b64Word true 0
  | .inf neg => b64Word neg b64InfMagnitude
  | .nan neg f => b64Word neg (b64InfMagnitude + (f.val + 1))

/-- `NUM_BINARY64.dec`: the value of a bit pattern (R13 (a)). -/
def b64Dec (w : Word) : NumVal :=
  let neg := w.getLsbD 63
  let m := w.toNat % 2 ^ 63
  if h : b64InfMagnitude < m then
    .nan neg ⟨m - b64InfMagnitude - 1, by
      have : w.toNat % 2 ^ 63 < 2 ^ 63 := Nat.mod_lt _ (by decide)
      simp only [b64InfMagnitude, m] at h ⊢
      omega⟩
  else b64OfMagnitude neg m

/-! ### The operations of `NUM_BINARY64` (R13 (a), G2) -/

/-- The NaN an operation gives on these operands: its pattern is a free value. -/
def b64NaN (op : NumOp) (a b : NumVal) : NumVal := .nan (Config.nanSign op a b) (Config.nanFraction op a b)

/-- The opposite of a value. -/
def b64Neg : NumVal → NumVal
  | .rat q => if q = 0 then .negZero else .rat (-q)
  | .negZero => .rat 0
  | .inf neg => .inf (!neg)
  | .nan neg f => .nan (!neg) f

/-- The sum of two operands that are no NaN; `none` where it is invalid. An exact sum of zero is `+0.0` unless both
operands are `-0.0`. -/
def b64Sum : NumVal → NumVal → Option NumVal
  | .nan _ _, _ => none
  | _, .nan _ _ => none
  | .inf s, .inf t => if s = t then some (.inf s) else none
  | .inf s, _ => some (.inf s)
  | _, .inf t => some (.inf t)
  | .negZero, .negZero => some .negZero
  | .rat p, .rat q => some (if p + q = 0 then .rat 0 else b64Round (p + q))
  | .rat p, .negZero => some (if p = 0 then .rat 0 else b64Round p)
  | .negZero, .rat q => some (if q = 0 then .rat 0 else b64Round q)

/-- The product of two operands that are no NaN; `none` where it is invalid. Its sign is the exclusive or of theirs. -/
def b64Product (a b : NumVal) : Option NumVal :=
  let neg := a.isNeg != b.isNeg
  match a, b with
  | .nan _ _, _ => none
  | _, .nan _ _ => none
  | .inf _, .inf _ => some (.inf neg)
  | .inf _, v => if v.toRat = 0 then none else some (.inf neg)
  | v, .inf _ => if v.toRat = 0 then none else some (.inf neg)
  | u, v => if u.toRat * v.toRat = 0 then some (b64OfMagnitude neg 0) else some (b64Round (u.toRat * v.toRat))

/-- Addition, rounded once. -/
def b64Add (a b : NumVal) : NumVal := (b64Sum a b).getD (b64NaN .add a b)

/-- Subtraction, rounded once. -/
def b64Sub (a b : NumVal) : NumVal := (b64Sum a (b64Neg b)).getD (b64NaN .sub a b)

/-- Multiplication, rounded once. -/
def b64Mul (a b : NumVal) : NumVal := (b64Product a b).getD (b64NaN .mul a b)

/-- Strictly greater; false where an operand is a NaN. -/
def b64Gt : NumVal → NumVal → Bool
  | .nan _ _, _ => false
  | _, .nan _ _ => false
  | .inf s, .inf t => !s && t
  | .inf s, _ => !s
  | _, .inf t => t
  | a, b => decide (b.toRat < a.toRat)

/-- Less or equal; false where an operand is a NaN. -/
def b64Le : NumVal → NumVal → Bool
  | .nan _ _, _ => false
  | _, .nan _ _ => false
  | .inf s, .inf t => s || !t
  | .inf s, _ => s
  | _, .inf t => !t
  | a, b => decide (a.toRat ≤ b.toRat)

/-- `NUM_BINARY64` (R13 (a)). -/
def numBinary64 : NumOps where
  zero := .rat 0
  add := b64Add
  sub := b64Sub
  mul := b64Mul
  gt := b64Gt
  le := b64Le
  finite := NumVal.isFinite
  enc := b64Enc
  dec := b64Dec

/-! ### `NUM_EXACT` (R13 (b)) -/

/-- `NUM_EXACT.enc`: the binary64 pattern of a rational that binary64 represents; another rational's word is free. -/
def exactEnc (v : NumVal) : Word :=
  if b64Round v.toRat = .rat v.toRat then b64Enc (.rat v.toRat) else Config.exactEncFree v.toRat

/-- `NUM_EXACT.dec`: the rational of a finite binary64 pattern; another word's rational is free. -/
def exactDec (w : Word) : NumVal :=
  if (b64Dec w).isFinite then .rat (b64Dec w).toRat else .rat (Config.exactDecFree w)

/-- `NUM_EXACT`: the rationals, every operation exact, everything finite (R13 (b)). -/
def numExact : NumOps where
  zero := .rat 0
  add a b := .rat (a.toRat + b.toRat)
  sub a b := .rat (a.toRat - b.toRat)
  mul a b := .rat (a.toRat * b.toRat)
  gt a b := decide (b.toRat < a.toRat)
  le a b := decide (a.toRat ≤ b.toRat)
  finite _ := true
  enc := exactEnc
  dec := exactDec

/-- The record of an instance (R12). -/
def numOps : NumInst → NumOps
  | .binary64 => numBinary64
  | .exact => numExact
  | .other => Config.otherNum

/-- The finite value with these bits. -/
def numOfFiniteBits (b : FiniteBits) : NumVal := b64OfMagnitude b.neg b.magnitude.val

end Sys2Proof
end

