-- ==== Sys2Proof/Machine/State.lean ====
section
/-!
DEFINITION. The state of the block (R20), plain data, and the state right after reset. `Regs` is the specification's
record less `INITD`; `State` adds `INITD`, the parameters, and the two sides of the command port.
-/

namespace Sys2Proof.Machine

/-- A delay line by its logical history, `hist[0]` the newest (R100). Its capacity is the length, which no
operation changes; the write cursor is not state (R37, R101). -/
structure DelayLine where
  hist : List NumVal
  deriving DecidableEq, Repr, Inhabited

/-- The two delay lines of one second-order section of one channel: `IIRX[c][s]` and `IIRY[c][s]` (R30). -/
structure IirSection where
  /-- `IIRX[c][s]`, the section's last two inputs. -/
  iirx : DelayLine
  /-- `IIRY[c][s]`, the section's last two outputs. -/
  iiry : DelayLine
  deriving DecidableEq, Repr, Inhabited

/-- The status codes of R191. -/
inductive Status where
  | ok | errIllegal | errUninit | errRange | errConfig
  deriving DecidableEq, Repr, Inhabited

/-- The response to one command (R76): status, Boolean result, index or count result, payload words. -/
structure Response where
  st : Status
  b : Bool
  ridx : Nat
  payload : List Word
  deriving DecidableEq, Repr, Inhabited

/-- What arrives at the block: a command as the transaction of a header and a payload list (R75), or the one event
that is no command, HWRESET (R215). -/
inductive PortEvent where
  | command (header : Word) (payload : List Word)
  | hwReset
  deriving DecidableEq, Repr, Inhabited

/-- The registers and stores of R20's table, all but `INITD`. After HWRESET none holds a stated value (R39). -/
structure Regs where
  /-- `NCH`, the channel count in use (R26). -/
  nch : Nat
  /-- `DECCNT`, the decimation counter (R27). -/
  deccnt : Nat
  /-- `FIRH`, the FIR input history, capacity T (R29). -/
  firh : DelayLine
  /-- `IIRX[c][s]` and `IIRY[c][s]` as `iir[c][s]`, c < NCH, s < S (R30). -/
  iir : List (List IirSection)
  /-- `ENW[c]`, the energy windows, capacity W, c < NCH (R31). -/
  enw : List DelayLine
  /-- `ENSUM[c]`, the energies, c < NCH (R22). -/
  ensum : List NumVal
  /-- `MASK`, bit c set means channel c is enabled (R32). -/
  mask : Word
  /-- `TF`, the threshold factor (R33). -/
  tf : NumVal
  /-- `IGNORE`, the ignore-all-hits flag (R34). -/
  ignore : Bool
  /-- `HIT`: a hit is latched (R35). -/
  hit : Bool
  /-- `HITCH`, the latched hit's channel (R36). -/
  hitch : Nat
  deriving DecidableEq, Repr, Inhabited

/-- The state of the machine (R20). `cfg`, `port`, `resp` and `hwresets` are the model's own fields. -/
structure State extends Regs where
  /-- The parameters (R8); no step writes them. -/
  cfg : Config
  /-- `INITD` (R25). -/
  initd : Bool
  /-- What has arrived at the command port and is not yet taken, in arrival order (R24). -/
  port : List PortEvent
  /-- The response of the last command taken (R76). -/
  resp : Option Response
  /-- How many HWRESET events there were: which free values the registers took at the last one. -/
  hwresets : Nat
  deriving DecidableEq, Repr, Inhabited

end Sys2Proof.Machine

/-- What the registers other than `INITD` hold after the `k`-th HWRESET: a free value (R215, U9). -/
opaque Sys2Proof.Config.regsAfterHwReset : Nat → Sys2Proof.Machine.Regs

namespace Sys2Proof.Machine

/-- Reasons the machine stops with a fault. There is none: no command and no event stops the block (R190, R197);
an error is a response (R196). No meaning raises a fault, so nothing is lost: safe. -/
inductive Fault where
  deriving DecidableEq, Repr

/-- Reasons the model gives no meaning. -/
inductive Refusal where
  /-- An instruction without a meaning yet, by its mnemonic. Raised by no arm of `exec`; safe. -/
  | notModelled (mnemonic : String)
  deriving DecidableEq, Repr

/-- The outcome of one step. -/
abbrev Result := Host.Outcome State Fault Refusal

/-- The parameters of the reset machine: R8's defaults, and an opaque constant for each OPEN row (DESIGN CHOICE). -/
def resetConfig : Config where
  num := .binary64
  nchMax := 10
  decim := 8
  firTaps := Config.firTapsLess1.val + 1
  firCoef := (List.range (Config.firTapsLess1.val + 1)).map fun i => numOfFiniteBits (Config.firCoefBits i)
  iirSections := Config.iirSectionsLess1.val + 1
  sosCoef := (List.range 10).map fun c => (List.range (Config.iirSectionsLess1.val + 1)).map fun s =>
    { b0 := numOfFiniteBits (Config.sosCoefBits c s 0)
      b1 := numOfFiniteBits (Config.sosCoefBits c s 1)
      b2 := numOfFiniteBits (Config.sosCoefBits c s 2)
      a1 := numOfFiniteBits (Config.sosCoefBits c s 3)
      a2 := numOfFiniteBits (Config.sosCoefBits c s 4) }
  energyWindow := 2000
  tfReset := b64OfMagnitude false (Config.tfResetLess1.val + 1)
  halfScale := .rat 2048

/-- The machine right after reset: `INITD` false (R39, HWRESET column). The specification gives the other registers
no value there; each holds zero, empty or false (DESIGN CHOICE), and nothing has arrived. -/
def State.reset : State where
  nch := 0
  deccnt := 0
  firh := ⟨[]⟩
  iir := []
  enw := []
  ensum := []
  mask := 0#64
  tf := .rat 0
  ignore := false
  hit := false
  hitch := 0
  cfg := resetConfig
  initd := false
  port := []
  resp := none
  hwresets := 0

/-- The numeric record of the hardware (R12). -/
abbrev State.num (s : State) : NumOps := numOps s.cfg.num

end Sys2Proof.Machine
end

