-- ==== Sys2Proof/Machine/Ops.lean ====
section
/-!
DEFINITION. The named operations every meaning is written over: the four delay-line primitives (R102 to R105), the
reads of the six stores (R50), answering a command and refusing one (the block's counterpart of taking an exception,
R196), the words of a response (R76), and HWRESET (R215).
-/

namespace Sys2Proof.Machine

/-! ### Delay line (spec/40_delay_line.md) -/

/-- `DL.create(N)` (R102): N elements, all `zero`. -/
def DelayLine.create (zero : NumVal) (capacity : Nat) : DelayLine := ⟨List.replicate capacity zero⟩

/-- The capacity N of the line (R100). -/
def DelayLine.capacity (d : DelayLine) : Nat := d.hist.length

/-- `DL.save(v)` (R103): `v` becomes the newest element, the oldest is discarded. -/
def DelayLine.save (d : DelayLine) (v : NumVal) : DelayLine := ⟨(v :: d.hist).take d.hist.length⟩

/-- `DL.read(k)` (R104): the element of age `k`, and `zero` at or beyond the capacity. -/
def DelayLine.read (zero : NumVal) (d : DelayLine) (k : Nat) : NumVal := d.hist.getD k zero

/-- `DL.reset()` (R105): every element `zero`, the capacity unchanged. -/
def DelayLine.reset (zero : NumVal) (d : DelayLine) : DelayLine := ⟨List.replicate d.hist.length zero⟩

/-! ### The stores (R50, R51) -/

/-- The all-zero coefficient tuple, read outside the table only. -/
def sosZero (zero : NumVal) : Sos := ⟨zero, zero, zero, zero, zero⟩

/-- Component `k` of a 5-tuple in the order b0, b1, b2, a1, a2 (R51). -/
def sosComponent (q : Sos) (k : Nat) : NumVal :=
  match k with
  | 0 => q.b0
  | 1 => q.b1
  | 2 => q.b2
  | 3 => q.a1
  | _ => q.a2

/-- `MemRead(FIRC, i)`: `FIR_COEF[i]` (R50). -/
def readFirc (s : State) (i : Nat) : NumVal := s.cfg.firCoef.getD i s.num.zero

/-- The row of channel `c` in `SOS_COEF` (R8). -/
def sosRow (s : State) (c : Nat) : List Sos := s.cfg.sosCoef.getD c []

/-- `MemRead(SOSC, (c, j))`: component `j mod 5` of `SOS_COEF[c][j div 5]` (R51). -/
def readSosc (s : State) (c j : Nat) : NumVal :=
  sosComponent ((sosRow s c).getD (j / 5) (sosZero s.num.zero)) (j % 5)

/-- The sections of channel `c` (R30). -/
def iirOf (s : State) (c : Nat) : List IirSection := s.iir.getD c []

/-- The window `ENW[c]` (R31). -/
def enwOf (s : State) (c : Nat) : DelayLine := s.enw.getD c ⟨[]⟩

/-- The register `ENSUM[c]` (R22). -/
def ensumOf (s : State) (c : Nat) : NumVal := s.ensum.getD c s.num.zero

/-- `for c in 0 .. n-1 ascending: body c` (R11), over the state. -/
def forChannels (n : Nat) (body : Nat → State → State) (s : State) : State :=
  (List.range n).foldl (fun t c => body c t) s

/-! ### Responses and error statuses (spec/60_exceptions.md) -/

/-- The number of a status code (R191). -/
def Status.code : Status → Nat
  | .ok => 0x00
  | .errIllegal => 0x01
  | .errUninit => 0x02
  | .errRange => 0x03
  | .errConfig => 0x04

/-- The OK response with these result fields (R76). -/
def okResponse (b : Bool) (ridx : Nat) (payload : List Word) : Response := ⟨.ok, b, ridx, payload⟩

/-- The error response of a status: the result fields zero and no payload (R76). -/
def errorResponse (st : Status) : Response := ⟨st, false, 0, []⟩

/-- `respond(b, ridx, payload)` (R11): the command ends with status OK in this state. -/
def respond (b : Bool) (ridx : Nat) (payload : List Word) (s : State) : Result :=
  .next { s with resp := some (okResponse b ridx payload) }

/-- `respond()` with no result (R77). -/
def respondDone (s : State) : Result := respond false 0 [] s

/-- `respond(ridx = n)` (R77). -/
def respondIndex (n : Nat) (s : State) : Result := respond false n [] s

/-- `respond(b = f)` (R77). -/
def respondFlag (f : Bool) (s : State) : Result := respond f 0 [] s

/-- `respond(payload = [v, ...])`: each `Num` as the word `NUM.enc` gives (R74, R77). -/
def respondNums (vs : List NumVal) (s : State) : Result := respond false 0 (vs.map s.num.enc) s

/-- `raise <Status>` (R11, R196): the command ends at once with the error response and no other change. -/
def raise (st : Status) (s : State) : Result := .next { s with resp := some (errorResponse st) }

/-- The check of `INITD` every command but INIT begins with (R192 (2)). -/
def whenInit (s : State) (body : Result) : Result := if s.initd then body else raise .errUninit s

/-- The header word of a response (R76). -/
def Response.headerWord (r : Response) : Word :=
  BitVec.ofNat 64 (r.st.code + r.b.toNat * 2 ^ 8 + r.ridx * 2 ^ 16)

/-- The words of a response: the header, then the payload (R76). -/
def Response.words (r : Response) : List Word := r.headerWord :: r.payload

/-! ### HWRESET -/

/-- The hardware reset event (R215): `INITD` is false, every other register holds a free value, and a command in
flight is discarded without a response. What has not yet arrived is not touched. -/
def hwReset (s : State) : State :=
  { s with toRegs := Config.regsAfterHwReset s.hwresets, initd := false, resp := none, hwresets := s.hwresets + 1 }

end Sys2Proof.Machine
end

