-- ==== Sys2Proof/Machine/Operands.lean ====
section
/-!
DEFINITION. The operands of a command: reading a `Num` from the payload (R74), and the checks of operand range (R192
(3), ERR_RANGE) and of configuration validity (R192 (4), ERR_CONFIG).
-/

namespace Sys2Proof.Machine

/-- The value of a `Num` payload word (R74). -/
def numOperand (s : State) (p : Word) : NumVal := s.num.dec p

/-- The energy vector of CHK: payload word k is the energy of channel k (R74). -/
def vecOperand (s : State) (ev : List Word) : List NumVal := ev.map (numOperand s)

/-- The channel operand names a channel in use (R191: below NCH). -/
def channelInRange (s : State) (c : Nat) : Bool := decide (c < s.nch)

/-- The index operand of GETFIRC is below T (R114). -/
def tapInRange (s : State) (i : Nat) : Bool := decide (i < s.cfg.firTaps)

/-- The index operand of GETSOSC is below 5*S (R126). -/
def sosIndexInRange (s : State) (j : Nat) : Bool := decide (j < 5 * s.cfg.iirSections)

/-- The count operand of INIT is in 1 .. NCH_MAX (R152). -/
def countValid (s : State) (n : Nat) : Bool := decide (1 ≤ n) && decide (n ≤ s.cfg.nchMax)

/-- The mask operand of SETCH has no bit at or above NCH: `m[63:NCH] = 0` (R166). -/
def maskValid (s : State) (m : Word) : Bool := m.toNat >>> s.nch == 0

/-- The factor operand of SETTF is finite and greater than zero (R167). -/
def factorValid (s : State) (f : NumVal) : Bool := s.num.finite f && s.num.gt f s.num.zero

/-- The mask with bits 0 .. n-1 set (R152: `2^n - 1`). -/
def allChannels (n : Nat) : Word := BitVec.ofNat 64 (2 ^ n - 1)

end Sys2Proof.Machine
end

