-- ==== Sys2Proof/Machine/Flags.lean ====
section
/-!
DEFINITION. The block has no arithmetic flags (R198). The flag it computes from data is `HIT`, with the channel
`HITCH`: the median of R176 and the threshold and selection of R177.
-/

namespace Sys2Proof.Machine

/-- Insert a value into a list kept in non-decreasing order by `le`. -/
def insertByLe (le : NumVal → NumVal → Bool) (v : NumVal) : List NumVal → List NumVal
  | [] => [v]
  | w :: rest => if le v w then v :: w :: rest else w :: insertByLe le v rest

/-- The vector arranged in non-decreasing order by `NUM.le` (R176). -/
def sortByLe (le : NumVal → NumVal → Bool) : List NumVal → List NumVal
  | [] => []
  | v :: rest => insertByLe le v (sortByLe le rest)

/-- `MEDIAN(ev) = s[(NCH - 1) div 2]` of the sorted vector (R176): the lower middle value. -/
def median (N : NumOps) (ev : List NumVal) : NumVal :=
  (sortByLe N.le ev).getD ((ev.length - 1) / 2) N.zero

/-- `thr = MEDIAN(ev) * TF` (R177). -/
def threshold (N : NumOps) (tf : NumVal) (ev : List NumVal) : NumVal := N.mul (median N ev) tf

/-- Channel `c` is enabled and its energy is strictly above the threshold (R177). -/
def exceeds (N : NumOps) (mask : Word) (thr : NumVal) (ev : List NumVal) (c : Nat) : Bool :=
  mask.getLsbD c && N.gt (ev.getD c N.zero) thr

/-- One turn of R177's loop: `best` after channel `c`. -/
def scanStep (N : NumOps) (mask : Word) (thr : NumVal) (ev : List NumVal) (best : Option Nat) (c : Nat) :
    Option Nat :=
  if exceeds N mask thr ev c then
    match best with
    | none => some c
    | some b => if N.gt (ev.getD c N.zero) (ev.getD b N.zero) then some c else some b
  else best

/-- The scan of R177 over channels 0 .. NCH-1 ascending. -/
def scan (N : NumOps) (mask : Word) (thr : NumVal) (ev : List NumVal) : Option Nat :=
  (List.range ev.length).foldl (scanStep N mask thr ev) none

/-- The values the sort and the comparisons work on are finite, so their results are specified (R14, U4). -/
def decisionSpecified (N : NumOps) (tf : NumVal) (ev : List NumVal) : Bool :=
  ev.all N.finite && N.finite (threshold N tf ev)

/-- The channel selected where the results of the sort and comparisons are not specified (R14): a free value, but
still a channel of the vector that is enabled, since the scan looks at no other (R177). -/
def freeSelection (mask : Word) (tf : NumVal) (ev : List NumVal) : Option Nat :=
  (Config.freeDecision mask tf ev).filter fun c => decide (c < ev.length) && mask.getLsbD c

/-- The hit channel of an energy vector, if a hit is found (R176, R177). -/
def decision (N : NumOps) (mask : Word) (tf : NumVal) (ev : List NumVal) : Option Nat :=
  if decisionSpecified N tf ev then scan N mask (threshold N tf ev) ev else freeSelection mask tf ev

end Sys2Proof.Machine
end

