-- ==== Sys2Proof/Machine/Detector.lean ====
section
/-!
DEFINITION. The Hit Detector (spec/45_detector.md): the commands SETCH, SETTF, IGN, CHK, GETHIT, GETHITCH, CLRHIT and
DETRST. None of them reads or writes the filters' state (R165).
-/

namespace Sys2Proof.Machine

/-- SETCH `m` (R166). -/
def execSetch (m : Word) (s : State) : Result :=
  whenInit s
    (if maskValid s m then respondDone { s with mask := m } else raise .errConfig s)

/-- SETTF `f` (R167). -/
def execSettf (f : Word) (s : State) : Result :=
  whenInit s
    (if factorValid s (numOperand s f) then respondDone { s with tf := numOperand s f } else raise .errConfig s)

/-- IGN `g` (R168). -/
def execIgn (g : Bool) (s : State) : Result :=
  whenInit s (respondDone { s with ignore := g })

/-- Latch the selected channel, if there is one: `HIT` and `HITCH`, both or neither (R171). -/
def latch (best : Option Nat) (s : State) : State :=
  match best with
  | none => s
  | some c => { s with hit := true, hitch := c }

/-- CHK `ev` (R171). A vector that has not NCH elements is ERR_ILLEGAL, after the `INITD` check (R192). -/
def execChk (ev : List Word) (s : State) : Result :=
  whenInit s
    (if ev.length ≠ s.nch then raise .errIllegal s
    else if s.hit then respondDone s
    else if s.ignore then respondDone s
    else respondDone (latch (decision s.num s.mask s.tf (vecOperand s ev)) s))

/-- GETHIT (R172). -/
def execGethit (s : State) : Result :=
  whenInit s (respondFlag s.hit s)

/-- GETHITCH (R173). -/
def execGethitch (s : State) : Result :=
  whenInit s (respondIndex s.hitch s)

/-- CLRHIT (R174). -/
def execClrhit (s : State) : Result :=
  whenInit s (respondDone { s with hit := false })

/-- DETRST (R175). -/
def execDetrst (s : State) : Result :=
  whenInit s
    (respondDone
      { s with mask := allChannels s.nch, tf := s.cfg.tfReset, ignore := false, hit := false, hitch := 0 })

end Sys2Proof.Machine
end

