-- ==== Sys2Proof/Machine/Energy.lean ====
section
/-!
DEFINITION. The Energy Estimator (spec/43_energy.md): the primitives of R136 and R137 and the commands ENUPD, GETEN,
GETENA and ENRSTA.
-/

namespace Sys2Proof.Machine

/-- The new sum of R136: the old sum plus the difference of what enters the window and what leaves it, one
subtraction and then one addition. -/
def energySum (N : NumOps) (sum entering leaving : NumVal) : NumVal := N.add sum (N.sub entering leaving)

/-- `EN.update(c, x)` (R136): the updated sum, and the state with the window and the sum moved on. The value leaving
the window is read before the save. -/
def enUpdate (c : Nat) (x : NumVal) (s : State) : NumVal × State :=
  let entering := s.num.mul x x
  let leaving := (enwOf s c).read s.num.zero (s.cfg.energyWindow - 1)
  let sum := energySum s.num (ensumOf s c) entering leaving
  (sum, { s with enw := s.enw.set c ((enwOf s c).save entering), ensum := s.ensum.set c sum })

/-- `EN.reset(c)` (R137): the window and the sum together. -/
def enReset (c : Nat) (s : State) : State :=
  { s with enw := s.enw.set c ((enwOf s c).reset s.num.zero), ensum := s.ensum.set c s.num.zero }

/-- ENUPD `c, x` (R138). -/
def execEnupd (c : Nat) (x : Word) (s : State) : Result :=
  whenInit s
    (if channelInRange s c then
      let r := enUpdate c (numOperand s x) s
      respondNums [r.1] r.2
    else raise .errRange s)

/-- GETEN `c` (R139). -/
def execGeten (c : Nat) (s : State) : Result :=
  whenInit s
    (if channelInRange s c then respondNums [ensumOf s c] s else raise .errRange s)

/-- GETENA (R140): `ENSUM[0]` to `ENSUM[NCH-1]`, channel 0 first. -/
def execGetena (s : State) : Result :=
  whenInit s (respondNums ((List.range s.nch).map (ensumOf s)) s)

/-- ENRSTA (R141). -/
def execEnrsta (s : State) : Result :=
  whenInit s (respondDone (forChannels s.nch enReset s))

end Sys2Proof.Machine
end

