-- ==== Sys2Proof/Machine/Fir.lean ====
section
/-!
DEFINITION. The FIR Decimator (spec/41_fir_decimator.md): the primitives of R111 and R113 and the commands FIRP,
FIRRST, GETFIRC and GETFIRN. None of them reads or writes `DECCNT` (R117).
-/

namespace Sys2Proof.Machine

/-- The sum of R111: from `zero`, each product formed and rounded on its own and added, in ascending tap order. -/
def firConvolve (s : State) (line : DelayLine) : NumVal :=
  (List.range s.cfg.firTaps).foldl
    (fun acc i => s.num.add acc (s.num.mul (readFirc s i) (line.read s.num.zero i))) s.num.zero

/-- `FIR.process(x, run)` (R111): the result, and the state with `x` saved. -/
def firProcess (x : NumVal) (run : Bool) (s : State) : NumVal × State :=
  let line := s.firh.save x
  (if run then firConvolve s line else s.num.zero, { s with firh := line })

/-- `FIR.reset()` (R113). -/
def firReset (s : State) : State := { s with firh := s.firh.reset s.num.zero }

/-- FIRP `x, run` (R112). -/
def execFirp (x : Word) (run : Bool) (s : State) : Result :=
  whenInit s
    (let r := firProcess (numOperand s x) run s
     respondNums [r.1] r.2)

/-- FIRRST (R113). -/
def execFirrst (s : State) : Result :=
  whenInit s (respondDone (firReset s))

/-- GETFIRC `i` (R114). -/
def execGetfirc (i : Nat) (s : State) : Result :=
  whenInit s
    (if tapInRange s i then respondNums [readFirc s i] s else raise .errRange s)

/-- GETFIRN (R115). -/
def execGetfirn (s : State) : Result :=
  whenInit s (respondIndex s.cfg.firTaps s)

end Sys2Proof.Machine
end

