-- ==== Sys2Proof/Machine/Iir.lean ====
section
/-!
DEFINITION. The IIR Channel Bank (spec/42_iir_bank.md): the primitives of R121, R122 and R129 and the commands IIRP,
IIRRST, IIRRSTA, GETSOSC, GETSOSS and GETSOSN.
-/

namespace Sys2Proof.Machine

/-- `SOS.step` (R121) of a section with coefficients `q` and histories `h`: its output, and its histories after.
Direct form I; the reads come before the saves, and the five terms are taken in the order of R121. -/
def sosStep (N : NumOps) (q : Sos) (h : IirSection) (x : NumVal) : NumVal × IirSection :=
  let x1 := h.iirx.read N.zero 0
  let x2 := h.iirx.read N.zero 1
  let y1 := h.iiry.read N.zero 0
  let y2 := h.iiry.read N.zero 1
  let acc := N.mul q.b0 x
  let acc := N.add acc (N.mul q.b1 x1)
  let acc := N.add acc (N.mul q.b2 x2)
  let acc := N.sub acc (N.mul q.a1 y1)
  let acc := N.sub acc (N.mul q.a2 y2)
  (acc, { iirx := h.iirx.save x, iiry := h.iiry.save acc })

/-- The cascade of R122: the sections in ascending order, the output of each the input of the next. A channel has
as many tuples as sections (R120). -/
def cascade (N : NumOps) : List Sos → List IirSection → NumVal → NumVal × List IirSection
  | q :: qs, h :: hs, v =>
    let r := sosStep N q h v
    let rest := cascade N qs hs r.1
    (rest.1, r.2 :: rest.2)
  | _, hs, v => (v, hs)

/-- `IIR.process(c, x)` (R122): the result, and the state with channel `c`'s histories moved on. -/
def iirProcess (c : Nat) (x : NumVal) (s : State) : NumVal × State :=
  let r := cascade s.num (sosRow s c) (iirOf s c) x
  (r.1, { s with iir := s.iir.set c r.2 })

/-- A section with both its delay lines reset (R129). -/
def sectionReset (zero : NumVal) (h : IirSection) : IirSection :=
  { iirx := h.iirx.reset zero, iiry := h.iiry.reset zero }

/-- `IIR.reset(c)` (R129). -/
def iirReset (c : Nat) (s : State) : State :=
  { s with iir := s.iir.set c ((iirOf s c).map (sectionReset s.num.zero)) }

/-- IIRP `c, x` (R123). -/
def execIirp (c : Nat) (x : Word) (s : State) : Result :=
  whenInit s
    (if channelInRange s c then
      let r := iirProcess c (numOperand s x) s
      respondNums [r.1] r.2
    else raise .errRange s)

/-- IIRRST `c` (R124). -/
def execIirrst (c : Nat) (s : State) : Result :=
  whenInit s
    (if channelInRange s c then respondDone (iirReset c s) else raise .errRange s)

/-- IIRRSTA (R125). -/
def execIirrsta (s : State) : Result :=
  whenInit s (respondDone (forChannels s.nch iirReset s))

/-- GETSOSC `c, j` (R126). -/
def execGetsosc (c j : Nat) (s : State) : Result :=
  whenInit s
    (if channelInRange s c && sosIndexInRange s j then respondNums [readSosc s c j] s else raise .errRange s)

/-- GETSOSS (R127). -/
def execGetsoss (s : State) : Result :=
  whenInit s (respondIndex s.cfg.iirSections s)

/-- GETSOSN (R128): the number of coefficients in a section's tuple. -/
def execGetsosn (s : State) : Result :=
  whenInit s (respondIndex 5 s)

end Sys2Proof.Machine
end

