-- ==== Sys2Proof/Machine/Pipeline.lean ====
section
/-!
DEFINITION. The Filter Pipeline Coordinator (spec/44_pipeline.md): the commands INIT, RESET and ADDS. RESET and ADDS
neither read nor write the Hit Detector's registers (R150).
-/

namespace Sys2Proof.Machine

/-- The registers after a successful INIT `n` (R152; R39, INIT column). -/
def initRegs (k : Config) (n : Nat) : Regs :=
  let zero := (numOps k.num).zero
  { nch := n
    deccnt := 0
    firh := DelayLine.create zero k.firTaps
    iir := List.replicate n
      (List.replicate k.iirSections { iirx := DelayLine.create zero 2, iiry := DelayLine.create zero 2 })
    enw := List.replicate n (DelayLine.create zero k.energyWindow)
    ensum := List.replicate n zero
    mask := allChannels n
    tf := k.tfReset
    ignore := false
    hit := false
    hitch := 0 }

/-- INIT `n` (R152): refused once initialised, then where the count is not in 1 .. NCH_MAX (R192). -/
def execInit (n : Nat) (s : State) : Result :=
  if s.initd then raise .errConfig s
  else if countValid s n then respondDone { s with toRegs := initRegs s.cfg n, initd := true }
  else raise .errConfig s

/-- The body of RESET's loop for channel `c` (R153). -/
def resetChannel (c : Nat) (s : State) : State := enReset c (iirReset c s)

/-- The filter half of RESET (R153): FIR, then each channel's filter and energy, then the counter. -/
def pipelineReset (s : State) : State :=
  { forChannels s.nch resetChannel (firReset s) with deccnt := 0 }

/-- RESET (R153). -/
def execReset (s : State) : Result :=
  whenInit s (respondDone (pipelineReset s))

/-- The fan-out to one channel (R155): the IIR step on the FIR's output, then the energy update on its result. -/
def channelTick (y : NumVal) (c : Nat) (s : State) : State :=
  let r := iirProcess c y s
  (enUpdate c r.1 r.2).2

/-- The tick of ADDS (R155): whether this sample decimates, and the state after. The counter is incremented before
the test (R154). -/
def addSample (x : NumVal) (s : State) : Bool × State :=
  let count := s.deccnt + 1
  let run := decide (count = s.cfg.decim)
  let r := firProcess x run { s with deccnt := count }
  (run, if run then forChannels s.nch (channelTick r.1) { r.2 with deccnt := 0 } else r.2)

/-- ADDS `x` (R155). -/
def execAdds (x : Word) (s : State) : Result :=
  whenInit s
    (let r := addSample (numOperand s x) s
     respondFlag r.1 r.2)

end Sys2Proof.Machine
end

