-- ==== Sys2Proof/Syntax.lean ====
section
/-!
DEFINITION. The abstract commands of R70: one constructor for each of the 25 rows of `spec/opcode_table.json`.
Operands have R70's types. An operand of type `Num` is held as the payload word that carries it (R74): what number
it is depends on the instance of `NUM`, and the meaning of the command reads it with `NUM.dec`.
-/

namespace Sys2Proof

/-- A command: an operation name with its operands (R70). -/
inductive Instr where
  /-- `init(channelCount)` (R152). -/
  | init (n : Nat)
  /-- The coordinator's `reset()` (R153). -/
  | reset
  /-- `addSample(scaledSample)` (R155). -/
  | adds (x : Word)
  /-- FIR `process(sample, shouldRun)` (R112). -/
  | firp (x : Word) (run : Bool)
  /-- FIR reset (R113). -/
  | firrst
  /-- One element of `getFirCoefArray()` (R114). -/
  | getfirc (i : Nat)
  /-- `getFirCoefCount()` (R115). -/
  | getfirn
  /-- IIR `process(channel, sample)` (R123). -/
  | iirp (c : Nat) (x : Word)
  /-- IIR `reset(channel)` (R124). -/
  | iirrst (c : Nat)
  /-- IIR "reset all" (R125). -/
  | iirrsta
  /-- One element of `getIirSosCoefArray(channel)` (R126). -/
  | getsosc (c : Nat) (j : Nat)
  /-- `getIirSosSectionCount()` (R127). -/
  | getsoss
  /-- `getIirSosCoefCount()` (R128). -/
  | getsosn
  /-- Energy `update(channel, newSample)` (R138). -/
  | enupd (c : Nat) (x : Word)
  /-- `getEnergyValue(channel)` (R139). -/
  | geten (c : Nat)
  /-- `getEnergyArray()` (R140). -/
  | getena
  /-- The energy estimators' reset (R141). -/
  | enrsta
  /-- `setChannels(enabledMask)` (R166). -/
  | setch (m : Word)
  /-- `setThreshFactor(factor)` (R167). -/
  | settf (f : Word)
  /-- `ignoreAllHits(bool)` (R168). -/
  | ign (g : Bool)
  /-- `checkHit(energyArray)` (R171). -/
  | chk (ev : List Word)
  /-- `getHit()` (R172). -/
  | gethit
  /-- `getHitChannel()` (R173). -/
  | gethitch
  /-- `clearHit()` (R174). -/
  | clrhit
  /-- Detector reset (R175). -/
  | detrst
  deriving DecidableEq, Repr, Inhabited

end Sys2Proof
end

