-- ==== Sys2Proof/Machine/Dispatch.lean ====
section
/-!
DEFINITION. The meaning of each command (R70): one arm per constructor of `Instr`, each one call of its own meaning.
-/

namespace Sys2Proof.Machine

/-- The outcome of one command in a state (R15, R24). -/
def exec (i : Instr) (s : State) : Host.Outcome State Fault Refusal :=
  match i with
  -- family 0: the coordinator
  | .init n => Sys2Proof.Machine.execInit n s
  | .reset => Sys2Proof.Machine.execReset s
  | .adds x => Sys2Proof.Machine.execAdds x s
  -- family 1: the FIR Decimator
  | .firp x run => Sys2Proof.Machine.execFirp x run s
  | .firrst => Sys2Proof.Machine.execFirrst s
  | .getfirc k => Sys2Proof.Machine.execGetfirc k s
  | .getfirn => Sys2Proof.Machine.execGetfirn s
  -- family 2: the IIR Channel Bank
  | .iirp c x => Sys2Proof.Machine.execIirp c x s
  | .iirrst c => Sys2Proof.Machine.execIirrst c s
  | .iirrsta => Sys2Proof.Machine.execIirrsta s
  | .getsosc c j => Sys2Proof.Machine.execGetsosc c j s
  | .getsoss => Sys2Proof.Machine.execGetsoss s
  | .getsosn => Sys2Proof.Machine.execGetsosn s
  -- family 3: the Energy Estimator
  | .enupd c x => Sys2Proof.Machine.execEnupd c x s
  | .geten c => Sys2Proof.Machine.execGeten c s
  | .getena => Sys2Proof.Machine.execGetena s
  | .enrsta => Sys2Proof.Machine.execEnrsta s
  -- family 4: the Hit Detector
  | .setch m => Sys2Proof.Machine.execSetch m s
  | .settf f => Sys2Proof.Machine.execSettf f s
  | .ign g => Sys2Proof.Machine.execIgn g s
  | .chk ev => Sys2Proof.Machine.execChk ev s
  | .gethit => Sys2Proof.Machine.execGethit s
  | .gethitch => Sys2Proof.Machine.execGethitch s
  | .clrhit => Sys2Proof.Machine.execClrhit s
  | .detrst => Sys2Proof.Machine.execDetrst s

end Sys2Proof.Machine
end

