-- ==== Sys2Proof/WellFormed.lean ====
section
/-!
DEFINITION. Which abstract commands have an encoding: the operand fields of the header are 8 and 16 bits wide (R72),
and an energy vector has from 1 to 64 elements (R75 with R26). A value a field can carry and the state does not
allow is not ill-formed; the command's own meaning refuses it (R80).
-/

namespace Sys2Proof

/-- A channel operand fits header bits 15:8 (R72). -/
def channelFits (c : Nat) : Bool := decide (c < 256)

/-- An index or count operand fits header bits 31:16 (R72). -/
def indexFits (n : Nat) : Bool := decide (n < 65536)

/-- An energy vector has NCH elements for some NCH in 1 .. 64 (R74, R26). -/
def vectorFits (ev : List Word) : Bool := decide (1 ≤ ev.length) && decide (ev.length ≤ 64)

/-- The command has an encoding (R72, R73, R75). -/
def Instr.wellFormed : Instr → Bool
  | .init n => indexFits n
  | .reset => true
  | .adds _ => true
  | .firp _ _ => true
  | .firrst => true
  | .getfirc i => indexFits i
  | .getfirn => true
  | .iirp c _ => channelFits c
  | .iirrst c => channelFits c
  | .iirrsta => true
  | .getsosc c j => channelFits c && indexFits j
  | .getsoss => true
  | .getsosn => true
  | .enupd c _ => channelFits c
  | .geten c => channelFits c
  | .getena => true
  | .enrsta => true
  | .setch _ => true
  | .settf _ => true
  | .ign _ => true
  | .chk ev => vectorFits ev
  | .gethit => true
  | .gethitch => true
  | .clrhit => true
  | .detrst => true

end Sys2Proof
end

