-- ==== Sys2Proof/Decode.lean ====
section
/-!
DEFINITION. The word encoding of a command (R71 to R79): the fields of the header, the ten formats, the opcode table
of R78, the decoder, and after it the encoder. The decoder is total: each pair of a header and a payload list is one
command or is rejected by name (R79). Words over a byte-wide transport (R53) stand at the end.
-/

namespace Sys2Proof

/-- Why a pair of header and payload is no command (R79), or a byte string no sequence of words (R53).
Every one is answered ERR_ILLEGAL. -/
inductive Illegal where
  /-- `op` is not in the table of R78. -/
  | unassignedOpcode
  /-- One of the header bits 63:33 is 1. -/
  | reservedBit
  /-- A header field the format does not use is not zero. -/
  | unusedField
  /-- The number of payload words is not the one R75 gives. -/
  | payloadLength
  /-- A byte string that is not one or more whole 64-bit words. -/
  | partialWord
  deriving DecidableEq, Repr, Inhabited

/-! ### The header's fields (R72) -/

/-- `op`, bits 7:0. -/
def opField (h : Word) : Nat := (h.extractLsb' 0 8).toNat

/-- `ch`, bits 15:8. -/
def chField (h : Word) : Nat := (h.extractLsb' 8 8).toNat

/-- `idx`, bits 31:16. -/
def idxField (h : Word) : Nat := (h.extractLsb' 16 16).toNat

/-- `f`, bit 32. -/
def fField (h : Word) : Bool := h.extractLsb' 32 1 == 1#1

/-- `rsv`, bits 63:33. -/
def rsvField (h : Word) : Nat := (h.extractLsb' 33 31).toNat

/-! ### The formats (R73) -/

/-- The ten formats N, X, C, CX, F, V, FV, CV, M and E of R73. -/
inductive CmdFormat where
  | n | x | c | cx | f | v | fv | cv | m | e
  deriving DecidableEq, Repr, Inhabited

/-- The format uses the header field `ch`. -/
def CmdFormat.usesCh : CmdFormat → Bool
  | .c | .cx | .cv => true
  | .n | .x | .f | .v | .fv | .m | .e => false

/-- The format uses the header field `idx`. -/
def CmdFormat.usesIdx : CmdFormat → Bool
  | .x | .cx => true
  | .n | .c | .f | .v | .fv | .cv | .m | .e => false

/-- The format uses the header field `f`. -/
def CmdFormat.usesF : CmdFormat → Bool
  | .f | .fv => true
  | .n | .x | .c | .cx | .v | .cv | .m | .e => false

/-- The header mask of R73's table: all 64 bits but those of the operand fields the format uses. -/
def CmdFormat.mask : CmdFormat → Word
  | .n | .v | .m | .e => 0xFFFFFFFFFFFFFFFF#64
  | .x => 0xFFFFFFFF0000FFFF#64
  | .c | .cv => 0xFFFFFFFFFFFF00FF#64
  | .cx => 0xFFFFFFFF000000FF#64
  | .f | .fv => 0xFFFFFFFEFFFFFFFF#64

/-- The number of payload words of the format (R73, R75); `vecLen` is NCH where it is defined, and `none`
leaves the length of format E open (before INIT, R75). -/
def CmdFormat.payloadCount (vecLen : Option Nat) : CmdFormat → Option Nat
  | .n | .x | .c | .cx | .f => some 0
  | .v | .fv | .cv | .m => some 1
  | .e => vecLen

/-- A payload of `k` words is one the format allows (R75). -/
def CmdFormat.takes (vecLen : Option Nat) (k : Nat) (fmt : CmdFormat) : Bool :=
  match fmt.payloadCount vecLen with
  | some count => k == count
  | none => true

/-- Each operand field the format does not use is zero (R72, R79). -/
def CmdFormat.unusedZero (fmt : CmdFormat) (h : Word) : Bool :=
  (fmt.usesCh || chField h == 0) && (fmt.usesIdx || idxField h == 0) && (fmt.usesF || !fField h)

/-! ### The opcode map (R78) -/

/-- One row of R78's table; `make` puts the operands of R78's last sentence into the command. -/
structure OpRow where
  mnemonic : String
  op : Nat
  format : CmdFormat
  make : Word → List Word → Instr

/-- The row's `match` word: the header with every operand field zero. -/
def OpRow.matchWord (r : OpRow) : Word := BitVec.ofNat 64 r.op

/-- Families 0 (pipeline) and 1 (FIR) of R78. -/
def opRowsLow : List OpRow :=
  [ ⟨"INIT", 0x01, .x, fun h _ => .init (idxField h)⟩,
    ⟨"RESET", 0x02, .n, fun _ _ => .reset⟩,
    ⟨"ADDS", 0x03, .v, fun _ p => .adds (p.headD 0#64)⟩,
    ⟨"FIRP", 0x10, .fv, fun h p => .firp (p.headD 0#64) (fField h)⟩,
    ⟨"FIRRST", 0x11, .n, fun _ _ => .firrst⟩,
    ⟨"GETFIRC", 0x12, .x, fun h _ => .getfirc (idxField h)⟩,
    ⟨"GETFIRN", 0x13, .n, fun _ _ => .getfirn⟩ ]

/-- Families 2 (IIR) and 3 (energy) of R78. -/
def opRowsMid : List OpRow :=
  [ ⟨"IIRP", 0x20, .cv, fun h p => .iirp (chField h) (p.headD 0#64)⟩,
    ⟨"IIRRST", 0x21, .c, fun h _ => .iirrst (chField h)⟩,
    ⟨"IIRRSTA", 0x22, .n, fun _ _ => .iirrsta⟩,
    ⟨"GETSOSC", 0x23, .cx, fun h _ => .getsosc (chField h) (idxField h)⟩,
    ⟨"GETSOSS", 0x24, .n, fun _ _ => .getsoss⟩,
    ⟨"GETSOSN", 0x25, .n, fun _ _ => .getsosn⟩,
    ⟨"ENUPD", 0x30, .cv, fun h p => .enupd (chField h) (p.headD 0#64)⟩,
    ⟨"GETEN", 0x31, .c, fun h _ => .geten (chField h)⟩,
    ⟨"GETENA", 0x32, .n, fun _ _ => .getena⟩,
    ⟨"ENRSTA", 0x33, .n, fun _ _ => .enrsta⟩ ]

/-- Family 4 (detector) of R78. -/
def opRowsHigh : List OpRow :=
  [ ⟨"SETCH", 0x40, .m, fun _ p => .setch (p.headD 0#64)⟩,
    ⟨"SETTF", 0x41, .v, fun _ p => .settf (p.headD 0#64)⟩,
    ⟨"IGN", 0x42, .f, fun h _ => .ign (fField h)⟩,
    ⟨"CHK", 0x43, .e, fun _ p => .chk p⟩,
    ⟨"GETHIT", 0x44, .n, fun _ _ => .gethit⟩,
    ⟨"GETHITCH", 0x45, .n, fun _ _ => .gethitch⟩,
    ⟨"CLRHIT", 0x46, .n, fun _ _ => .clrhit⟩,
    ⟨"DETRST", 0x47, .n, fun _ _ => .detrst⟩ ]

/-- The opcode table of R78, all 25 rows. -/
def opcodeTable : List OpRow := opRowsLow ++ opRowsMid ++ opRowsHigh

/-- The row with this opcode, if it is assigned (R78, R79). -/
def rowOf (op : Nat) : Option OpRow := opcodeTable.find? (fun r => r.op == op)

/-- The decoder: the command that a header and its payload list are, or why they are none (R78, R79).
`vecLen` is the number of payload words CHK must have, `none` where the state does not define it (R75). -/
def decode (vecLen : Option Nat) (h : Word) (payload : List Word) : Except Illegal Instr :=
  match rowOf (opField h) with
  | none => .error .unassignedOpcode
  | some r =>
    if rsvField h ≠ 0 then .error .reservedBit
    else if !r.format.unusedZero h then .error .unusedField
    else if !r.format.takes vecLen payload.length then .error .payloadLength
    else .ok (r.make h payload)

/-! ### The encoder -/

/-- A header word from its fields (R72). -/
def mkHeader (op ch idx : Nat) (f : Bool) : Word :=
  BitVec.ofNat 64 (op + ch * 2 ^ 8 + idx * 2 ^ 16 + f.toNat * 2 ^ 32)

/-- The header word of a command (R72, R78). -/
def encodeHeader : Instr → Word
  | .init n => mkHeader 0x01 0 n false
  | .reset => mkHeader 0x02 0 0 false
  | .adds _ => mkHeader 0x03 0 0 false
  | .firp _ run => mkHeader 0x10 0 0 run
  | .firrst => mkHeader 0x11 0 0 false
  | .getfirc i => mkHeader 0x12 0 i false
  | .getfirn => mkHeader 0x13 0 0 false
  | .iirp c _ => mkHeader 0x20 c 0 false
  | .iirrst c => mkHeader 0x21 c 0 false
  | .iirrsta => mkHeader 0x22 0 0 false
  | .getsosc c j => mkHeader 0x23 c j false
  | .getsoss => mkHeader 0x24 0 0 false
  | .getsosn => mkHeader 0x25 0 0 false
  | .enupd c _ => mkHeader 0x30 c 0 false
  | .geten c => mkHeader 0x31 c 0 false
  | .getena => mkHeader 0x32 0 0 false
  | .enrsta => mkHeader 0x33 0 0 false
  | .setch _ => mkHeader 0x40 0 0 false
  | .settf _ => mkHeader 0x41 0 0 false
  | .ign g => mkHeader 0x42 0 0 g
  | .chk _ => mkHeader 0x43 0 0 false
  | .gethit => mkHeader 0x44 0 0 false
  | .gethitch => mkHeader 0x45 0 0 false
  | .clrhit => mkHeader 0x46 0 0 false
  | .detrst => mkHeader 0x47 0 0 false

/-- The payload words of a command (R73, R74). -/
def encodePayload : Instr → List Word
  | .adds x => [x]
  | .firp x _ => [x]
  | .iirp _ x => [x]
  | .enupd _ x => [x]
  | .setch m => [m]
  | .settf f => [f]
  | .chk ev => ev
  | .init _ | .reset | .firrst | .getfirc _ | .getfirn | .iirrst _ | .iirrsta | .getsosc _ _ | .getsoss
  | .getsosn | .geten _ | .getena | .enrsta | .ign _ | .gethit | .gethitch | .clrhit | .detrst => []

/-- The words of a command: the header, then the payload (R71). -/
def encode (i : Instr) : List Word := encodeHeader i :: encodePayload i

/-! ### A word over a byte-wide transport (R53) -/

/-- The eight bytes of a word, the least significant first (R53). -/
def bytesOfWord (w : Word) : List Byte := (List.range 8).map fun k => w.extractLsb' (8 * k) 8

/-- The word whose bytes these are, the least significant first (R53). -/
def wordOfBytes (bs : List Byte) : Word :=
  BitVec.ofNat 64 (bs.foldr (fun b acc => b.toNat + 256 * acc) 0)

/-- The bytes of a sequence of words: the header first, then the payload in index order (R53). -/
def bytesOfWords (ws : List Word) : List Byte := ws.flatMap bytesOfWord

/-- The words that a byte string carries, if it is a whole number of them (R53). -/
def wordsOfBytes : List Byte → Option (List Word)
  | [] => some []
  | b0 :: b1 :: b2 :: b3 :: b4 :: b5 :: b6 :: b7 :: rest =>
    (wordsOfBytes rest).map fun ws => wordOfBytes [b0, b1, b2, b3, b4, b5, b6, b7] :: ws
  | _ => none

/-- The decoder over the bytes of a command (R53, R79): total on any byte string. -/
def decodeBytes (vecLen : Option Nat) (bs : List Byte) : Except Illegal Instr :=
  match wordsOfBytes bs with
  | some (h :: payload) => decode vecLen h payload
  | _ => .error .partialWord

/-! ### A row's bits as one number, as `spec/opcode_table.json` numbers them -/

/-- The `k`-th word of an instruction whose low `nbits` bits are those of `w` and whose other bits are zero. -/
def tableWord (nbits w k : Nat) : Word := BitVec.ofNat 64 ((w % 2 ^ nbits) >>> (64 * k))

/-- The payload words of that instruction, as many as its opcode has. A CHK whose length the state does not define
gets one, the shortest a CHK can have (R75 with R26). -/
def tablePayload (vecLen : Option Nat) (nbits w : Nat) : List Word :=
  match rowOf (opField (tableWord nbits w 0)) with
  | none => []
  | some r =>
    (List.range ((r.format.payloadCount vecLen).getD 1)).map fun k => tableWord nbits w (k + 1)

/-- The instruction the decoder reads from an instruction whose bits are `w` (none where it is illegal). -/
def decodeTableWord (nbits w : Nat) : Option Instr :=
  (decode none (tableWord nbits w 0) (tablePayload none nbits w)).toOption

end Sys2Proof
end

