-- ==== Sys2Proof/Machine/Fetch.lean ====
section
/-!
DEFINITION. Taking the next event from the command port, the block's counterpart of fetching (R24): what the decoder is
told of the state, and how a transaction is placed at the port.
-/

namespace Sys2Proof.Machine

/-- The number of payload words a CHK must have: NCH, and not defined while `INITD` is false (R75). -/
def vecLen (s : State) : Option Nat := if s.initd then some s.nch else none

/-- The state with the first event of the port taken. -/
def takePort (s : State) : State := { s with port := s.port.tail }

/-- The state with this event the next one to be taken. -/
def placePort (e : PortEvent) (s : State) : State := { s with port := e :: s.port }

/-- A pair of header and payload that is no command: ERR_ILLEGAL and no other change (R79, R196). -/
def answerIllegal (s : State) : Result := raise .errIllegal s

/-- The transaction of an instruction whose bits are `w`, in the layout of `decodeTableWord`. -/
def tableCommand (s : State) (nbits w : Nat) : PortEvent :=
  .command (tableWord nbits w 0) (tablePayload (vecLen s) nbits w)

end Sys2Proof.Machine
end

