-- ==== Sys2Proof/Machine/Step.lean ====
section
/-!
DEFINITION. One step of the machine: take the next event from the command port and carry it out. One command is one
step (R231). With nothing at the port the block holds its state and does nothing (R205, R233 (c)).
-/

namespace Sys2Proof.Machine

/-- One step. -/
def step (s : State) : Host.Outcome State Fault Refusal :=
  match s.port with
  | [] => .next s
  | .hwReset :: _ => .next (hwReset (takePort s))
  | .command h payload :: _ =>
    match decode (vecLen s) h payload with
    | .error _ => answerIllegal (takePort s)
    | .ok i => exec i (takePort s)

/-- The state in which the next event taken is the command whose bits are `w` (see `decodeTableWord`). -/
def State.withFetchWord (s : State) (nbits w : Nat) : State := placePort (tableCommand s nbits w) s

end Sys2Proof.Machine
end

