-- ==== Sys2Proof/Safety.lean ====
section
/-!
DEFINITION. What a good state and a good run are, in the terms the statements use: the bounds of the parameters (R8),
the sizes and ranges of the state (R20 to R36), the energy invariant of `NUM_EXACT` (R23), and runs of commands.
-/

namespace Sys2Proof.Machine

/-- All five coefficients of a section are finite. -/
def sosFinite (N : NumOps) (q : Sos) : Bool :=
  N.finite q.b0 && N.finite q.b1 && N.finite q.b2 && N.finite q.a1 && N.finite q.a2

/-- The parameters are within R8's bounds, HALF_SCALE among them, and the tables have the sizes R8 gives them. -/
def configValid (k : Config) : Bool :=
  let N := numOps k.num
  decide (1 ≤ k.nchMax) && decide (k.nchMax ≤ 64) && decide (1 ≤ k.decim)
  && decide (1 ≤ k.firTaps) && decide (k.firTaps ≤ 65535) && decide (k.firCoef.length = k.firTaps)
  && k.firCoef.all N.finite
  && decide (1 ≤ k.iirSections) && decide (k.iirSections ≤ 13107) && decide (k.sosCoef.length = k.nchMax)
  && k.sosCoef.all (fun row => decide (row.length = k.iirSections) && row.all (sosFinite N))
  && decide (1 ≤ k.energyWindow) && N.finite k.tfReset && N.gt k.tfReset N.zero
  && N.gt k.halfScale N.zero

/-- A section's two delay lines have capacity 2 (R30). -/
def sectionSized (h : IirSection) : Bool := decide (h.iirx.capacity = 2) && decide (h.iiry.capacity = 2)

/-- The registers and stores of an initialised block have the sizes and ranges of R26 to R36. -/
def regsValid (k : Config) (r : Regs) : Bool :=
  let N := numOps k.num
  decide (1 ≤ r.nch) && decide (r.nch ≤ k.nchMax) && decide (r.deccnt < k.decim)
  && decide (r.firh.capacity = k.firTaps)
  && decide (r.iir.length = r.nch)
  && r.iir.all (fun row => decide (row.length = k.iirSections) && row.all sectionSized)
  && decide (r.enw.length = r.nch) && r.enw.all (fun d => decide (d.capacity = k.energyWindow))
  && decide (r.ensum.length = r.nch)
  && decide (r.mask.toNat < 2 ^ r.nch)
  && N.finite r.tf && N.gt r.tf N.zero
  && decide (r.hitch < r.nch)

/-- The state is one the block can be in: valid parameters and, once initialised, valid registers. Before INIT the
registers hold no stated value (R215). -/
def State.wf (s : State) : Bool := configValid s.cfg && (!s.initd || regsValid s.cfg s.toRegs)

/-- The exact sum of a window's contents (R23). -/
def windowSum (d : DelayLine) : Rat := (d.hist.map NumVal.toRat).sum

/-- The energy invariant of R23 in exact arithmetic: each energy is its window's sum. -/
def energyInvariant (s : State) : Prop := ∀ c < s.nch, (ensumOf s c).toRat = windowSum (enwOf s c)

/-- The commands in order, one after the other (R24): their responses, and the state they leave. -/
def runCommands : List Instr → State → List Response × State
  | [], s => ([], s)
  | i :: rest, s =>
    match exec i s with
    | .next t => let r := runCommands rest t; (t.resp.toList ++ r.1, r.2)
    | .fault _ => ([], s)
    | .refused _ => ([], s)

/-- The outputs of `FIR.process` with `run` true on every tick (R118). -/
def firOutputs : List NumVal → State → List NumVal
  | [], _ => []
  | x :: rest, s => let r := firProcess x true s; r.1 :: firOutputs rest r.2

/-- The outputs of `EN.update` of channel `c` on these samples (R142), and the state after. -/
def enOutputs (c : Nat) : List NumVal → State → List NumVal × State
  | [], s => ([], s)
  | x :: rest, s => let r := enUpdate c x s; let t := enOutputs c rest r.2; (r.1 :: t.1, t.2)

/-- The outputs of `IIR.process` of channel `c` on these samples (R131), and the state after. -/
def iirOutputs (c : Nat) : List NumVal → State → List NumVal × State
  | [], s => ([], s)
  | x :: rest, s => let r := iirProcess c x s; let t := iirOutputs c rest r.2; (r.1 :: t.1, t.2)

/-- The filter commands R218 names: ADDS, FIRP, IIRP, ENUPD, GETEN, GETENA and the filters' resets. -/
def filterCommand : Instr → Bool
  | .adds _ | .firp _ _ | .iirp _ _ | .enupd _ _ | .geten _ | .getena => true
  | .reset | .firrst | .iirrst _ | .iirrsta | .enrsta => true
  | .init _ | .getfirc _ | .getfirn | .getsosc _ _ | .getsoss | .getsosn => false
  | .setch _ | .settf _ | .ign _ | .chk _ | .gethit | .gethitch | .clrhit | .detrst => false

/-- The detector commands (R78, family 4). -/
def detectorCommand : Instr → Bool
  | .setch _ | .settf _ | .ign _ | .chk _ | .gethit | .gethitch | .clrhit | .detrst => true
  | .init _ | .reset | .adds _ | .firp _ _ | .firrst | .getfirc _ | .getfirn => false
  | .iirp _ _ | .iirrst _ | .iirrsta | .getsosc _ _ | .getsoss | .getsosn => false
  | .enupd _ _ | .geten _ | .getena | .enrsta => false

/-- The read-only commands of R56. -/
def readOnlyCommand : Instr → Bool
  | .getfirc _ | .getfirn | .getsosc _ _ | .getsoss | .getsosn | .geten _ | .getena | .gethit | .gethitch => true
  | .init _ | .reset | .adds _ | .firp _ _ | .firrst | .iirp _ _ | .iirrst _ | .iirrsta | .enupd _ _ | .enrsta => false
  | .setch _ | .settf _ | .ign _ | .chk _ | .clrhit | .detrst => false

/-- A section whose two delay lines hold `zero`, as INIT creates it (R152). -/
def zeroSection (zero : NumVal) : IirSection :=
  { iirx := DelayLine.create zero 2, iiry := DelayLine.create zero 2 }

end Sys2Proof.Machine
end

