-- ==== Sys2Proof/Certificates/Slice0/Obligations.lean ====
section
/-!
DEFINITION. The statements for the provers. `N` in a docstring is the numeric record of the hardware (R12). A
statement over every state is a statement over every choice of the parameters, which State carries (log 1).
-/

open Sys2Proof Sys2Proof.Machine

/-! ## The encoding -/

/-- Decoding the encoding of a well-formed command gives the command back, with every operand at every value its
field admits; a CHK is decoded where its length is NCH or not yet defined (R72 to R75, R78). -/
def Obligations.DecodeOfEncode : Prop :=
  ∀ (i : Instr) (v : Option Nat), i.wellFormed = true →
    (∀ ev, i = .chk ev → v = none ∨ v = some ev.length) →
    decode v (encodeHeader i) (encodePayload i) = .ok i

/-- Every pair of header and payload the decoder accepts is the encoding of the command it gives: no bit of the words
is dropped (R72, R73, R79). -/
def Obligations.EncodeOfDecode : Prop :=
  ∀ (v : Option Nat) (h : Word) (p : List Word) (i : Instr), decode v h p = .ok i →
    encodeHeader i = h ∧ encodePayload i = p

/-- R83: the worked encodings, one per format, both ways, and the worked response words. -/
def Obligations.WorkedEncodings : Prop :=
  (∀ x ∈ ([ (.reset, [0x0000000000000002#64]),
      (.init 10, [0x00000000000A0001#64]),
      (.geten 6, [0x0000000000000631#64]),
      (.getsosc 2 7, [0x0000000000070223#64]),
      (.ign true, [0x0000000100000042#64]),
      (.adds (b64Enc (.rat (1 / 2))), [0x0000000000000003#64, 0x3FE0000000000000#64]),
      (.firp (b64Enc (.rat 1)) true, [0x0000000100000010#64, 0x3FF0000000000000#64]),
      (.iirp 3 (b64Enc (.rat (-1))), [0x0000000000000320#64, 0xBFF0000000000000#64]),
      (.setch 0x3FB#64, [0x0000000000000040#64, 0x00000000000003FB#64]),
      (.chk [b64Enc (.rat 1), b64Enc (.rat 2)],
        [0x0000000000000043#64, 0x3FF0000000000000#64, 0x4000000000000000#64]) ] : List (Instr × List Word)),
    encode x.1 = x.2 ∧ (decode (some 2) (x.2.headD 0#64) x.2.tail).toOption = some x.1) ∧
  (okResponse false 0 []).words = [0x0000000000000000#64] ∧
  (okResponse true 0 []).words = [0x0000000000000100#64] ∧
  (okResponse false 6 []).words = [0x0000000000060000#64] ∧
  (okResponse false 0 [b64Enc (.rat 57)]).words = [0x0000000000000000#64, 0x404C800000000000#64] ∧
  (errorResponse .errRange).words = [0x0000000000000003#64]

/-- The decoder accepts a header and a payload exactly where some row of the table has `(h AND mask) = match` and the
payload count of its format (R73, R75, R78, R79). The decoder reads fields, not masks: the two readings agree. -/
def Obligations.DecodeAcceptsMaskMatch : Prop :=
  ∀ (v : Option Nat) (h : Word) (p : List Word),
    (∃ i, decode v h p = .ok i) ↔
      ∃ r ∈ opcodeTable, h &&& r.format.mask = r.matchWord ∧ r.format.takes v p.length = true

/-- R78: at most one row of the opcode table matches a header. -/
def Obligations.OpcodeRowsDisjoint : Prop :=
  ∀ (h : Word), ∀ r ∈ opcodeTable, ∀ q ∈ opcodeTable,
    h &&& r.format.mask = r.matchWord → h &&& q.format.mask = q.matchWord → r.mnemonic = q.mnemonic

/-- R53: words carried over a byte-wide transport, least significant byte first and the header before the payload,
come back as they were; so the bytes of a command decode to what its words decode to. -/
def Obligations.TransportRoundTrip : Prop :=
  (∀ ws : List Word, wordsOfBytes (bytesOfWords ws) = some ws) ∧
  ∀ (v : Option Nat) (h : Word) (p : List Word), decodeBytes v (bytesOfWords (h :: p)) = decode v h p

/-! ## The step -/

/-- A step runs the decoded command: where the transaction at the head of the port decodes to a command, the step is
that command's outcome in the state with the transaction taken, and nothing else. The same for a transaction placed
by `withFetchWord`. -/
def Obligations.StepRunsDecoded : Prop :=
  (∀ (s : State) (h : Word) (p : List Word) (rest : List PortEvent) (i : Instr),
    s.port = .command h p :: rest → decode (vecLen s) h p = .ok i → step s = exec i { s with port := rest }) ∧
  ∀ (s : State) (nbits w : Nat) (i : Instr),
    decode (vecLen s) (tableWord nbits w 0) (tablePayload (vecLen s) nbits w) = .ok i →
    step (s.withFetchWord nbits w) = exec i s

/-- A transaction that does not decode is answered ERR_ILLEGAL, whether or not the block is initialised, and
changes no state (R79, R192, R196). -/
def Obligations.IllegalTransactionRefused : Prop :=
  ∀ (s : State) (h : Word) (p : List Word) (rest : List PortEvent) (e : Illegal),
    s.port = .command h p :: rest → decode (vecLen s) h p = .error e →
    step s = .next { s with port := rest, resp := some (errorResponse .errIllegal) }

/-- HWRESET (R215): `INITD` is false after it, the parameters stay, and the block goes on with what arrives next. That
the response field is empty after it and that what waits behind it is kept are the model's choice (log 11). -/
def Obligations.HwResetEvent : Prop :=
  ∀ (s : State) (rest : List PortEvent), s.port = .hwReset :: rest →
    ∃ t, step s = .next t ∧ t.initd = false ∧ t.resp = none ∧ t.cfg = s.cfg ∧ t.port = rest

/-- Between commands the block holds its state and does nothing (R205). The step with nothing to take is the model's
(log 12). -/
def Obligations.IdleStepHolds : Prop :=
  ∀ s : State, s.port = [] → step s = .next s

/-! ## Responses and errors -/

/-- While `INITD` is false every command other than INIT is refused with ERR_UNINIT and changes nothing (R25,
R192 (2)): before its operands are looked at. -/
def Obligations.UninitialisedRefused : Prop :=
  ∀ (i : Instr) (s : State), s.initd = false → (∀ n, i ≠ .init n) →
    exec i s = .next { s with resp := some (errorResponse .errUninit) }

/-- R196: a command whose response is an error has changed nothing, and the response carries nothing but the code:
of each command, and of a step that takes a transaction from the port, decodable or not. -/
def Obligations.ErrorChangesNothing : Prop :=
  (∀ (i : Instr) (s t : State) (r : Response), exec i s = .next t → t.resp = some r → r.st ≠ .ok →
    t = { s with resp := some (errorResponse r.st) }) ∧
  ∀ (s t : State) (h : Word) (p : List Word) (rest : List PortEvent) (r : Response),
    s.port = .command h p :: rest → step s = .next t → t.resp = some r → r.st ≠ .ok →
    t = { s with port := rest, resp := some (errorResponse r.st) }

/-- The block is total: every command in every state, and every step of every state, goes on; a command is answered
with one response, and neither the parameters nor what waits at the port is touched by it (R79, R190, R233). Three of
its cases are the model's choice and no rule's: that a CHK on values that are not finite goes on (log 8; R14 and U4 have
a model refuse that run), that what waits behind an HWRESET is kept (log 11), and the step with an empty port (log 12). -/
def Obligations.EveryCommandAnswered : Prop :=
  (∀ (i : Instr) (s : State), ∃ t r, exec i s = .next t ∧ t.resp = some r ∧ t.port = s.port ∧ t.cfg = s.cfg ∧
    t.hwresets = s.hwresets) ∧
  ∀ s : State, ∃ t, step s = .next t ∧ t.port = s.port.tail ∧ t.cfg = s.cfg

/-- R193: which commands can return which status. -/
def Obligations.StatusOwners : Prop :=
  ∀ (i : Instr) (s t : State) (r : Response), exec i s = .next t → t.resp = some r →
    (r.st = .errUninit → ∀ n, i ≠ .init n) ∧
    (r.st = .errRange → (∃ k, i = .getfirc k) ∨ (∃ c x, i = .iirp c x) ∨ (∃ c, i = .iirrst c) ∨
      (∃ c j, i = .getsosc c j) ∨ (∃ c x, i = .enupd c x) ∨ ∃ c, i = .geten c) ∧
    (r.st = .errConfig → (∃ n, i = .init n) ∨ (∃ m, i = .setch m) ∨ ∃ f, i = .settf f) ∧
    (r.st = .errIllegal → ∃ ev, i = .chk ev)

/-- Before INIT no response depends on the registers, and INIT writes all of them: two uninitialised blocks with the
same parameters answer every command alike and are alike after it where it initialises them (R215, U9). -/
def Obligations.UninitialisedUnobservable : Prop :=
  ∀ (i : Instr) (s u t v : State), s.initd = false → u.initd = false → s.cfg = u.cfg →
    exec i s = .next t → exec i u = .next v →
    t.resp = v.resp ∧ t.initd = v.initd ∧ (t.initd = true → t.toRegs = v.toRegs)

/-! ## The coordinator -/

/-- R152: INIT creates all state for `n` channels; it is refused once the block is initialised, and where the count
is 0 or above NCH_MAX. -/
def Obligations.InitCommand : Prop :=
  ∀ (n : Nat) (s : State),
    (s.initd = true → exec (.init n) s = .next { s with resp := some (errorResponse .errConfig) }) ∧
    (s.initd = false → n = 0 ∨ s.cfg.nchMax < n →
      exec (.init n) s = .next { s with resp := some (errorResponse .errConfig) }) ∧
    (s.initd = false → 1 ≤ n → n ≤ s.cfg.nchMax →
      exec (.init n) s = .next { s with
        initd := true, nch := n, deccnt := 0
        firh := ⟨List.replicate s.cfg.firTaps s.num.zero⟩
        iir := List.replicate n (List.replicate s.cfg.iirSections
          ⟨⟨List.replicate 2 s.num.zero⟩, ⟨List.replicate 2 s.num.zero⟩⟩)
        enw := List.replicate n ⟨List.replicate s.cfg.energyWindow s.num.zero⟩
        ensum := List.replicate n s.num.zero
        mask := BitVec.ofNat 64 (2 ^ n - 1), tf := s.cfg.tfReset
        ignore := false, hit := false, hitch := 0
        resp := some (okResponse false 0 []) })

/-- R153: RESET zeroes every delay line and energy and the counter, and nothing else. -/
def Obligations.ResetCommand : Prop :=
  ∀ s : State,
    (s.initd = true → s.wf = true →
      exec .reset s = .next { s with
        firh := ⟨List.replicate s.cfg.firTaps s.num.zero⟩
        iir := List.replicate s.nch (List.replicate s.cfg.iirSections
          ⟨⟨List.replicate 2 s.num.zero⟩, ⟨List.replicate 2 s.num.zero⟩⟩)
        enw := List.replicate s.nch ⟨List.replicate s.cfg.energyWindow s.num.zero⟩
        ensum := List.replicate s.nch s.num.zero
        deccnt := 0
        resp := some (okResponse false 0 []) }) ∧
    (s.initd = false → exec .reset s = .next { s with resp := some (errorResponse .errUninit) })

/-- R218: after RESET every sequence of filter commands gets the responses it gets after INIT with the same count, and
after DETRST every sequence of detector commands does; a second RESET or DETRST changes nothing. -/
def Obligations.ResetsMatchInit : Prop :=
  ∀ s u t v : State, s.initd = true → s.wf = true → u.initd = false → u.cfg = s.cfg →
    exec (.init s.nch) u = .next v →
    (exec .reset s = .next t → ∀ is : List Instr, (∀ i ∈ is, filterCommand i = true) →
      (runCommands is t).1 = (runCommands is v).1) ∧
    (exec .detrst s = .next t → ∀ is : List Instr, (∀ i ∈ is, detectorCommand i = true) →
      (runCommands is t).1 = (runCommands is v).1) ∧
    (exec .reset s = .next t → exec .reset t = .next t) ∧ (exec .detrst s = .next t → exec .detrst t = .next t)

/-- R155 on a tick that does not decimate: the counter moves on, the sample enters FIRH, and no channel is touched. -/
def Obligations.AddsHoldingTick : Prop :=
  ∀ (x : Word) (s : State), s.initd = true → s.deccnt + 1 ≠ s.cfg.decim →
    exec (.adds x) s = .next { s with
      deccnt := s.deccnt + 1, firh := s.firh.save (s.num.dec x), resp := some (okResponse false 0 []) }

/-- R155 on a decimation tick: the counter is 0, the sample enters FIRH, and with `y` the convolution over the new
history every channel runs its cascade on `y` and its energy on the cascade's result; the response bit is 1 and every
other register is unchanged. -/
def Obligations.AddsDecimatingTick : Prop :=
  ∀ (x : Word) (s : State), s.initd = true → s.wf = true → s.deccnt + 1 = s.cfg.decim →
    ∃ t, exec (.adds x) s = .next t ∧
      t = { s with deccnt := 0, firh := s.firh.save (s.num.dec x), iir := t.iir, enw := t.enw, ensum := t.ensum,
                   resp := some (okResponse true 0 []) } ∧
      t.iir.length = s.nch ∧ t.enw.length = s.nch ∧ t.ensum.length = s.nch ∧
      ∀ c < s.nch,
        let y := (List.range s.cfg.firTaps).foldl (fun acc i => s.num.add acc (s.num.mul (readFirc s i)
          ((s.firh.save (s.num.dec x)).read s.num.zero i))) s.num.zero
        let z := cascade s.num (sosRow s c) (iirOf s c) y
        let sq := s.num.mul z.1 z.1
        iirOf t c = z.2 ∧ enwOf t c = (enwOf s c).save sq ∧
        ensumOf t c = s.num.add (ensumOf s c)
          (s.num.sub sq ((enwOf s c).read s.num.zero (s.cfg.energyWindow - 1)))

/-- R158 (a): of consecutive ADDS from `DECCNT` = 0 (after RESET or INIT) exactly those numbered D, 2D, ... return
true, so of N of them `N div D`. -/
def Obligations.AddsCountsDecimations : Prop :=
  ∀ (s : State) (xs : List Word), s.initd = true → s.wf = true → s.deccnt = 0 →
    (runCommands (xs.map Instr.adds) s).1.map Response.b =
      (List.range xs.length).map (fun k => decide ((k + 1) % s.cfg.decim = 0)) ∧
    ((runCommands (xs.map Instr.adds) s).1.filter Response.b).length = xs.length / s.cfg.decim

/-- R158 (d): an ADDS has the effect of the corresponding component commands: FIRP with `run` set on a decimation tick,
then, there, IIRP and ENUPD for every channel in ascending order on the values they return. The two differ only in
`DECCNT` and the response. The values pass through the port, so the statement asks that encoding them loses nothing. -/
def Obligations.AddsEqualsComponents : Prop :=
  ∀ (x : Word) (s t : State), s.initd = true → s.wf = true → exec (.adds x) s = .next t →
    let run := decide (s.deccnt + 1 = s.cfg.decim)
    let y := (firProcess (s.num.dec x) run s).1
    let z := fun c => (cascade s.num (sosRow s c) (iirOf s c) y).1
    let fanOut := (List.range s.nch).flatMap fun c => [.iirp c (s.num.enc y), .enupd c (s.num.enc (z c))]
    s.num.dec (s.num.enc y) = y → (∀ c < s.nch, s.num.dec (s.num.enc (z c)) = z c) →
    t = { (runCommands (.firp x run :: if run then fanOut else []) s).2 with deccnt := t.deccnt, resp := t.resp }

/-- R158 (c), on the histories: decimation drops outputs, never inputs. A stream of ADDS leaves in FIRH what the same
samples given to FIRP on every tick leave there. -/
def Obligations.DecimationDropsNoInput : Prop :=
  ∀ (s : State) (xs : List Word) (run : Bool), s.initd = true →
    (runCommands (xs.map Instr.adds) s).2.firh = (runCommands (xs.map (Instr.firp · run)) s).2.firh

/-! ## The FIR Decimator -/

/-- R111 and R112: FIRP saves the sample, and returns zero, or with `run` the convolution of the new history, each
product added in ascending tap order to an accumulator that starts at zero. -/
def Obligations.FirpCommand : Prop :=
  ∀ (x : Word) (run : Bool) (s : State),
    (s.initd = true → exec (.firp x run) s = .next { s with
      firh := s.firh.save (s.num.dec x)
      resp := some (okResponse false 0 [s.num.enc (if run then
        (List.range s.cfg.firTaps).foldl (fun acc i => s.num.add acc (s.num.mul (readFirc s i)
          ((s.firh.save (s.num.dec x)).read s.num.zero i))) s.num.zero
        else s.num.zero)]) }) ∧
    (s.initd = false → exec (.firp x run) s = .next { s with resp := some (errorResponse .errUninit) })

/-- R113, R114 and R115: FIRRST zeroes FIRH alone; GETFIRC returns coefficient `i`, and ERR_RANGE for `i` at or above
T; GETFIRN returns T. -/
def Obligations.FirResetAndAccessors : Prop :=
  ∀ s : State,
    (s.initd = true →
      exec .firrst s = .next { s with
        firh := ⟨List.replicate s.firh.capacity s.num.zero⟩, resp := some (okResponse false 0 []) } ∧
      (∀ i, i < s.cfg.firTaps →
        exec (.getfirc i) s = .next { s with
          resp := some (okResponse false 0 [s.num.enc (s.cfg.firCoef.getD i s.num.zero)]) }) ∧
      (∀ i, s.cfg.firTaps ≤ i → exec (.getfirc i) s = .next { s with resp := some (errorResponse .errRange) }) ∧
      exec .getfirn s = .next { s with resp := some (okResponse false s.cfg.firTaps []) }) ∧
    (s.initd = false → ∀ i ∈ [Instr.firrst, .getfirn], exec i s =
      .next { s with resp := some (errorResponse .errUninit) }) ∧
    (s.initd = false → ∀ k, exec (.getfirc k) s = .next { s with resp := some (errorResponse .errUninit) })

/-- R118 (a) in `NUM_EXACT`: from a zeroed history a unit impulse with `run` on every tick reproduces the coefficient
table, tick by tick, and zero once it has left the line. -/
def Obligations.FirImpulseResponse : Prop :=
  ∀ (s : State) (n i : Nat), s.cfg.num = .exact → configValid s.cfg = true →
    s.firh = ⟨List.replicate s.cfg.firTaps (.rat 0)⟩ → i ≤ n →
    (firOutputs (.rat 1 :: List.replicate n (.rat 0)) s)[i]? =
      some (.rat (if i < s.cfg.firTaps then (readFirc s i).toRat else 0))

/-- R118 (b) in `NUM_EXACT`: from a zeroed history a constant 1.0 gives at tick `i` the sum of the coefficients up to
`i`, and of all T of them from tick T on. -/
def Obligations.FirStepResponse : Prop :=
  ∀ (s : State) (n i : Nat), s.cfg.num = .exact → configValid s.cfg = true →
    s.firh = ⟨List.replicate s.cfg.firTaps (.rat 0)⟩ → i < n →
    (firOutputs (List.replicate n (.rat 1)) s)[i]? =
      some (.rat (((List.range (min (i + 1) s.cfg.firTaps)).map fun k => (readFirc s k).toRat).sum))

/-- R107: what a delay line reads after any saves, at or beyond its capacity, and after a reset. -/
def Obligations.DelayLineHistory : Prop :=
  ∀ (zero : NumVal) (d : DelayLine) (vs : List NumVal) (k : Nat),
    (k < d.capacity → k < vs.length →
      (vs.foldl DelayLine.save d).read zero k = vs.getD (vs.length - 1 - k) zero) ∧
    (k < d.capacity → vs.length ≤ k → (vs.foldl DelayLine.save d).read zero k = d.read zero (k - vs.length)) ∧
    (d.capacity ≤ k → (vs.foldl DelayLine.save d).read zero k = zero) ∧
    (d.reset zero).read zero k = zero ∧
    (vs.foldl DelayLine.save d).capacity = d.capacity ∧ (d.reset zero).capacity = d.capacity

/-! ## The IIR Channel Bank -/

/-- R121: one second-order section, its output and its histories. -/
def Obligations.SectionDifferenceEquation : Prop :=
  ∀ (N : NumOps) (q : Sos) (h : IirSection) (x : NumVal),
    let r := fun (d : DelayLine) (k : Nat) => d.hist.getD k N.zero
    let y := N.sub (N.sub (N.add (N.add (N.mul q.b0 x) (N.mul q.b1 (r h.iirx 0))) (N.mul q.b2 (r h.iirx 1)))
      (N.mul q.a1 (r h.iiry 0))) (N.mul q.a2 (r h.iiry 1))
    sosStep N q h x = (y, ⟨h.iirx.save x, h.iiry.save y⟩)

/-- R122 and R123: IIRP runs the channel's sections in series, each once and in ascending order, and returns the last
one's output; a channel at or above NCH is ERR_RANGE. The fold hands each section's output to the next. -/
def Obligations.IirpCommand : Prop :=
  ∀ (c : Nat) (x : Word) (s : State),
    (s.initd = true → s.wf = true → c < s.nch →
      let r := ((sosRow s c).zip (iirOf s c)).foldl
        (fun (acc : NumVal × List IirSection) qh =>
          ((sosStep s.num qh.1 qh.2 acc.1).1, acc.2 ++ [(sosStep s.num qh.1 qh.2 acc.1).2])) (s.num.dec x, [])
      exec (.iirp c x) s = .next { s with
        iir := s.iir.set c r.2, resp := some (okResponse false 0 [s.num.enc r.1]) }) ∧
    (s.initd = true → s.nch ≤ c → exec (.iirp c x) s = .next { s with resp := some (errorResponse .errRange) }) ∧
    (s.initd = false → exec (.iirp c x) s = .next { s with resp := some (errorResponse .errUninit) })

/-- R124 and R125: IIRRST zeroes every history of its channel and nothing else; IIRRSTA those of every channel. -/
def Obligations.IirResetCommands : Prop :=
  ∀ s : State,
    (s.initd = true → s.wf = true →
      (∀ c, c < s.nch → exec (.iirrst c) s = .next { s with
        iir := s.iir.set c (List.replicate s.cfg.iirSections
          ⟨⟨List.replicate 2 s.num.zero⟩, ⟨List.replicate 2 s.num.zero⟩⟩)
        resp := some (okResponse false 0 []) }) ∧
      exec .iirrsta s = .next { s with
        iir := List.replicate s.nch (List.replicate s.cfg.iirSections
          ⟨⟨List.replicate 2 s.num.zero⟩, ⟨List.replicate 2 s.num.zero⟩⟩)
        resp := some (okResponse false 0 []) }) ∧
    (s.initd = true → ∀ c, s.nch ≤ c →
      exec (.iirrst c) s = .next { s with resp := some (errorResponse .errRange) }) ∧
    (s.initd = false → exec .iirrsta s = .next { s with resp := some (errorResponse .errUninit) } ∧
      ∀ c, exec (.iirrst c) s = .next { s with resp := some (errorResponse .errUninit) })

/-- R126, R127 and R128: GETSOSC returns component `j mod 5` (b0, b1, b2, a1, a2) of section `j div 5` of channel `c`;
a channel at or above NCH or an index at or above 5*S is ERR_RANGE; GETSOSS returns S and GETSOSN 5. -/
def Obligations.IirAccessors : Prop :=
  ∀ s : State,
    (s.initd = true →
      (∀ c k, c < s.nch → k < s.cfg.iirSections →
        let q := (sosRow s c).getD k ⟨s.num.zero, s.num.zero, s.num.zero, s.num.zero, s.num.zero⟩
        ∀ jv ∈ [(5 * k, q.b0), (5 * k + 1, q.b1), (5 * k + 2, q.b2), (5 * k + 3, q.a1), (5 * k + 4, q.a2)],
          exec (.getsosc c jv.1) s = .next { s with resp := some (okResponse false 0 [s.num.enc jv.2]) }) ∧
      (∀ c j, s.nch ≤ c ∨ 5 * s.cfg.iirSections ≤ j →
        exec (.getsosc c j) s = .next { s with resp := some (errorResponse .errRange) }) ∧
      exec .getsoss s = .next { s with resp := some (okResponse false s.cfg.iirSections []) } ∧
      exec .getsosn s = .next { s with resp := some (okResponse false 5 []) }) ∧
    (s.initd = false →
      (∀ c j, exec (.getsosc c j) s = .next { s with resp := some (errorResponse .errUninit) }) ∧
      exec .getsoss s = .next { s with resp := some (errorResponse .errUninit) } ∧
      exec .getsosn s = .next { s with resp := some (errorResponse .errUninit) })

/-- R130: channels are independent. A call on one channel leaves the histories of the others, and two calls on
different channels give the same results and the same state in either order. -/
def Obligations.IirChannelsIndependent : Prop :=
  ∀ (s : State) (c d : Nat) (x y : NumVal), c ≠ d →
    iirOf (iirProcess c x s).2 d = iirOf s d ∧ iirOf (iirReset c s) d = iirOf s d ∧
    (iirProcess d y (iirProcess c x s).2).1 = (iirProcess d y s).1 ∧
    (iirProcess c x (iirProcess d y s).2).1 = (iirProcess c x s).1 ∧
    (iirProcess d y (iirProcess c x s).2).2 = (iirProcess c x (iirProcess d y s).2).2

/-- R131 (b) in `NUM_EXACT`: from a zeroed channel a stream of zeros gives zeros. -/
def Obligations.IirZeroStream : Prop :=
  ∀ (s : State) (c n : Nat), s.cfg.num = .exact → s.wf = true → s.initd = true → c < s.nch →
    iirOf s c = List.replicate s.cfg.iirSections (zeroSection (.rat 0)) →
    (iirOutputs c (List.replicate n (.rat 0)) s).1 = List.replicate n (.rat 0)

/-! ## The Energy Estimator -/

/-- R136 and R138: ENUPD squares the sample, adds the difference to what leaves the window (one subtraction, then one
addition), saves the square and returns the new sum; a channel at or above NCH is ERR_RANGE. -/
def Obligations.EnupdCommand : Prop :=
  ∀ (c : Nat) (x : Word) (s : State),
    (s.initd = true → c < s.nch →
      let v := s.num.dec x
      let old := (enwOf s c).read s.num.zero (s.cfg.energyWindow - 1)
      let sum := s.num.add (ensumOf s c) (s.num.sub (s.num.mul v v) old)
      exec (.enupd c x) s = .next { s with
        enw := s.enw.set c ((enwOf s c).save (s.num.mul v v)), ensum := s.ensum.set c sum
        resp := some (okResponse false 0 [s.num.enc sum]) }) ∧
    (s.initd = true → s.nch ≤ c → exec (.enupd c x) s = .next { s with resp := some (errorResponse .errRange) }) ∧
    (s.initd = false → exec (.enupd c x) s = .next { s with resp := some (errorResponse .errUninit) })

/-- R139 and R140: GETEN returns one energy, and ERR_RANGE for a channel at or above NCH; GETENA returns all NCH of
them, channel 0 first. -/
def Obligations.EnergyReads : Prop :=
  ∀ s : State,
    (s.initd = true → s.wf = true →
      (∀ c, c < s.nch → exec (.geten c) s = .next { s with
        resp := some (okResponse false 0 [s.num.enc (s.ensum.getD c s.num.zero)]) }) ∧
      exec .getena s = .next { s with resp := some (okResponse false 0 (s.ensum.map s.num.enc)) }) ∧
    (s.initd = true → ∀ c, s.nch ≤ c →
      exec (.geten c) s = .next { s with resp := some (errorResponse .errRange) }) ∧
    (s.initd = false → exec .getena s = .next { s with resp := some (errorResponse .errUninit) } ∧
      ∀ c, exec (.geten c) s = .next { s with resp := some (errorResponse .errUninit) })

/-- R141: ENRSTA zeroes every window and every energy, and nothing else. -/
def Obligations.EnrstaCommand : Prop :=
  ∀ s : State,
    (s.initd = true → s.wf = true → exec .enrsta s = .next { s with
      enw := List.replicate s.nch ⟨List.replicate s.cfg.energyWindow s.num.zero⟩
      ensum := List.replicate s.nch s.num.zero
      resp := some (okResponse false 0 []) }) ∧
    (s.initd = false → exec .enrsta s = .next { s with resp := some (errorResponse .errUninit) })

/-- R23 in `NUM_EXACT`: every step, of every good state, keeps each energy equal to the sum of its window. -/
def Obligations.EnergyIsWindowSumKept : Prop :=
  ∀ s t : State, s.cfg.num = .exact → s.wf = true → (s.initd = true → energyInvariant s) → step s = .next t →
    (t.initd = true → energyInvariant t)

/-- R142 in `NUM_EXACT`: from a reset channel a constant `v` gives after `j` updates `j*v²` while the window fills and
`W*v²` from then on. -/
def Obligations.EnergyOfConstantInput : Prop :=
  ∀ (s : State) (c n j : Nat) (v : NumVal), s.cfg.num = .exact → s.wf = true → s.initd = true → c < s.nch →
    enwOf s c = ⟨List.replicate s.cfg.energyWindow (.rat 0)⟩ → ensumOf s c = .rat 0 → j < n →
    (enOutputs c (List.replicate n v) s).1[j]? =
      some (.rat ((min (j + 1) s.cfg.energyWindow : Nat) * (v.toRat * v.toRat)))

/-- R142 in `NUM_BINARY64`: from a reset channel a constant `v` with a finite square saturates exactly: no update after
the `W`-th changes the energy, whatever rounding the first `W` had. -/
def Obligations.EnergySaturatesInBinary64 : Prop :=
  ∀ (s : State) (c n j : Nat) (v : NumVal), s.cfg.num = .binary64 → s.wf = true → s.initd = true → c < s.nch →
    enwOf s c = ⟨List.replicate s.cfg.energyWindow (.rat 0)⟩ → ensumOf s c = .rat 0 →
    (b64Mul v v).isFinite = true → s.cfg.energyWindow ≤ j → j < n →
    (enOutputs c (List.replicate n v) s).1[j]? =
      (enOutputs c (List.replicate n v) s).1[s.cfg.energyWindow - 1]?

/-- R144 in `NUM_EXACT`: a window of good state holds no negative value, a step keeps it so, and with R23's invariant
no energy is then negative. -/
def Obligations.EnergyNotNegative : Prop :=
  (∀ s t : State, s.cfg.num = .exact → s.wf = true →
    (s.initd = true → ∀ c < s.nch, ∀ v ∈ (enwOf s c).hist, 0 ≤ v.toRat) → step s = .next t →
    (t.initd = true → ∀ c < t.nch, ∀ v ∈ (enwOf t c).hist, 0 ≤ v.toRat)) ∧
  ∀ s : State, energyInvariant s → (∀ c < s.nch, ∀ v ∈ (enwOf s c).hist, 0 ≤ v.toRat) →
    ∀ c < s.nch, 0 ≤ (ensumOf s c).toRat

/-- R143: between decimation ticks, and without ENUPD and the commands that reset the energies, ENSUM does not change;
an ADDS that returns false does not change it. -/
def Obligations.EnergyStableBetweenTicks : Prop :=
  ∀ (i : Instr) (s t : State), s.initd = true → exec i s = .next t →
    (∀ c x, i ≠ .enupd c x) → i ≠ .enrsta → i ≠ .reset →
    (∀ x, i = .adds x → ∃ r, t.resp = some r ∧ r.b = false) → t.ensum = s.ensum ∧ t.enw = s.enw

/-! ## The numbers -/

/-- R13 (a): `enc` and `dec` of binary64 are the identity on the 64-bit pattern, for every word. -/
def Obligations.Binary64PatternIdentity : Prop :=
  ∀ w : Word, numBinary64.enc (numBinary64.dec w) = w

/-- R13 (a): rounding is to nearest with ties to even. No finite magnitude is nearer to the exact value than the one
chosen, and where another is as near the chosen one is even. -/
def Obligations.RoundsToNearestEven : Prop :=
  ∀ (q : Rat) (m : Nat), b64Magnitude q < b64InfMagnitude → m < b64InfMagnitude →
    abs (b64Value (b64Magnitude q) - abs q) ≤ abs (b64Value m - abs q) ∧
    (abs (b64Value (b64Magnitude q) - abs q) = abs (b64Value m - abs q) → m ≠ b64Magnitude q →
      b64Magnitude q % 2 = 0)

/-! ## The Hit Detector -/

/-- R166: SETCH sets the mask, and is refused with ERR_CONFIG where a bit at or above NCH is set. -/
def Obligations.SetchCommand : Prop :=
  ∀ (m : Word) (s : State),
    (s.initd = true → (∀ c, s.nch ≤ c → c < 64 → m.getLsbD c = false) →
      exec (.setch m) s = .next { s with mask := m, resp := some (okResponse false 0 []) }) ∧
    (s.initd = true → (∃ c, s.nch ≤ c ∧ c < 64 ∧ m.getLsbD c = true) →
      exec (.setch m) s = .next { s with resp := some (errorResponse .errConfig) }) ∧
    (s.initd = false → exec (.setch m) s = .next { s with resp := some (errorResponse .errUninit) })

/-- R167: SETTF sets the threshold factor where it is finite and greater than zero, and is refused with ERR_CONFIG
where it is not. -/
def Obligations.SettfCommand : Prop :=
  ∀ (f : Word) (s : State),
    (s.initd = true → s.num.finite (s.num.dec f) = true → s.num.gt (s.num.dec f) s.num.zero = true →
      exec (.settf f) s = .next { s with tf := s.num.dec f, resp := some (okResponse false 0 []) }) ∧
    (s.initd = true → (s.num.finite (s.num.dec f) = false ∨ s.num.gt (s.num.dec f) s.num.zero = false) →
      exec (.settf f) s = .next { s with resp := some (errorResponse .errConfig) }) ∧
    (s.initd = false → exec (.settf f) s = .next { s with resp := some (errorResponse .errUninit) })

/-- R168, R172, R173, R174 and R175: IGN, GETHIT, GETHITCH, CLRHIT and DETRST. -/
def Obligations.DetectorRegisterCommands : Prop :=
  ∀ s : State,
    (s.initd = true →
      (∀ g, exec (.ign g) s = .next { s with ignore := g, resp := some (okResponse false 0 []) }) ∧
      exec .gethit s = .next { s with resp := some (okResponse s.hit 0 []) } ∧
      exec .gethitch s = .next { s with resp := some (okResponse false s.hitch []) } ∧
      exec .clrhit s = .next { s with hit := false, resp := some (okResponse false 0 []) } ∧
      exec .detrst s = .next { s with
        mask := BitVec.ofNat 64 (2 ^ s.nch - 1), tf := s.cfg.tfReset, ignore := false, hit := false, hitch := 0
        resp := some (okResponse false 0 []) }) ∧
    (s.initd = false →
      (∀ i ∈ [Instr.gethit, .gethitch, .clrhit, .detrst],
        exec i s = .next { s with resp := some (errorResponse .errUninit) }) ∧
      ∀ g, exec (.ign g) s = .next { s with resp := some (errorResponse .errUninit) })

/-- R171 where nothing is decided: CHK is a no-op with status OK while a hit is latched or hits are ignored, ERR_ILLEGAL
where the vector has not NCH elements, and ERR_UNINIT before INIT whatever its length. -/
def Obligations.ChkWithoutDecision : Prop :=
  ∀ (ev : List Word) (s : State),
    (s.initd = true → ev.length = s.nch → s.hit = true ∨ s.ignore = true →
      exec (.chk ev) s = .next { s with resp := some (okResponse false 0 []) }) ∧
    (s.initd = true → ev.length ≠ s.nch →
      exec (.chk ev) s = .next { s with resp := some (errorResponse .errIllegal) }) ∧
    (s.initd = false → exec (.chk ev) s = .next { s with resp := some (errorResponse .errUninit) })

/-- R177 with R171, for the two named instances and finite values: from IDLE, with `thr` the median times the factor,
CHK latches nothing where no enabled channel's energy is above `thr`, and otherwise latches the enabled channel of
greatest energy above `thr`, the lowest index among equals. -/
def Obligations.ChkLatchesGreatest : Prop :=
  ∀ (ws : List Word) (s : State), s.cfg.num ≠ .other → s.initd = true → ws.length = s.nch →
    s.hit = false → s.ignore = false →
    let ev := ws.map s.num.dec
    let thr := s.num.mul (median s.num ev) s.tf
    let e := fun c => ev.getD c s.num.zero
    let above := fun c => s.mask.getLsbD c = true ∧ s.num.gt (e c) thr = true
    (∀ v ∈ ev, s.num.finite v = true) → s.num.finite thr = true →
    ((∀ c < s.nch, ¬ above c) ∧ exec (.chk ws) s = .next { s with resp := some (okResponse false 0 []) }) ∨
    (∃ b < s.nch, above b ∧ (∀ c < s.nch, above c → s.num.gt (e c) (e b) = false) ∧
      (∀ c < b, above c → s.num.gt (e b) (e c) = true) ∧
      exec (.chk ws) s = .next { s with hit := true, hitch := b, resp := some (okResponse false 0 []) })

/-- R176 for the two named instances and finite values: the median is the element of index `(NCH - 1) div 2` of the
vector arranged in non-decreasing order. -/
def Obligations.MedianIsLowerMiddle : Prop :=
  ∀ (n : NumInst) (ev : List NumVal), n ≠ .other → (∀ v ∈ ev, (numOps n).finite v = true) →
    ∃ sorted : List NumVal, sorted.Perm ev ∧ sorted.Pairwise (fun a b => (numOps n).le a b = true) ∧
      median (numOps n) ev = sorted.getD ((ev.length - 1) / 2) (numOps n).zero

/-- The model's choice of log 8 where R14 leaves CHK's decision unspecified (an energy or the threshold is not finite):
CHK still completes with status OK, and latches nothing or some enabled channel. -/
def Obligations.ChkUnspecifiedStaysInBounds : Prop :=
  ∀ (ws : List Word) (s : State), s.initd = true → ws.length = s.nch → s.hit = false → s.ignore = false →
    decisionSpecified s.num s.tf (ws.map s.num.dec) = false →
    exec (.chk ws) s = .next { s with resp := some (okResponse false 0 []) } ∨
    ∃ b < s.nch, s.mask.getLsbD b = true ∧
      exec (.chk ws) s = .next { s with hit := true, hitch := b, resp := some (okResponse false 0 []) }

/-- R169: the detector's state machine. `HIT` is set by CHK alone, while `IGNORE` is false; it is cleared by CLRHIT and
DETRST alone once the block is initialised; while it is set, CHK changes no register. -/
def Obligations.HitStateMachine : Prop :=
  ∀ (i : Instr) (s t : State), s.initd = true → exec i s = .next t →
    (s.hit = false → t.hit = true → (∃ ev, i = .chk ev) ∧ s.ignore = false) ∧
    (s.hit = true → t.hit = false → i = .clrhit ∨ i = .detrst) ∧
    (s.hit = true → (∃ ev, i = .chk ev) → t.toRegs = s.toRegs) ∧
    (t.hitch ≠ s.hitch → (∃ ev, i = .chk ev) ∨ i = .detrst)

/-- R180: the source's worked example, in every state of ten channels: threshold 56 latches channel 6 with channel 2
disabled and channel 2 with it enabled; threshold 70 latches nothing. -/
def Obligations.SourceDetectorExample : Prop :=
  ∀ s : State, s.cfg.num ≠ .other → s.initd = true → s.nch = 10 → s.hit = false → s.ignore = false →
    let ev8 : List Word := [0x4030000000000000#64, 0x4026000000000000#64, 0x4051C00000000000#64,
      0x4028000000000000#64, 0x402C000000000000#64, 0x4032000000000000#64, 0x404C800000000000#64,
      0x4024000000000000#64, 0x4033000000000000#64, 0x402A000000000000#64]
    (s.mask = 0x3FB#64 → s.tf = .rat 4 → exec (.chk ev8) s =
      .next { s with hit := true, hitch := 6, resp := some (okResponse false 0 []) }) ∧
    (s.mask = 0x3FF#64 → s.tf = .rat 4 → exec (.chk ev8) s =
      .next { s with hit := true, hitch := 2, resp := some (okResponse false 0 []) }) ∧
    (s.mask = 0x3FB#64 → s.tf = .rat 5 → exec (.chk ev8) s =
      .next { s with resp := some (okResponse false 0 []) })

/-- R178 (a): with no channel enabled a CHK of any vector of NCH elements latches nothing, whatever the numbers; for
values that are not finite that is the model's choice (log 8). -/
def Obligations.EmptyMaskNeverHits : Prop :=
  ∀ (ev : List Word) (s : State), s.initd = true → ev.length = s.nch → s.mask = 0#64 →
    exec (.chk ev) s = .next { s with resp := some (okResponse false 0 []) }

/-- R178 (b) in `NUM_EXACT`: a flat vector of value `v` latches nothing where the factor is at least 1 and `v` is not
negative, nor where `v` is 0, and latches the lowest enabled channel where the factor is below 1 and `v` positive. -/
def Obligations.FlatVectorDecision : Prop :=
  ∀ (ws : List Word) (s : State) (v : Rat), s.cfg.num = .exact → s.initd = true → ws.length = s.nch → ws ≠ [] →
    s.hit = false → s.ignore = false → (∀ w ∈ ws, s.num.dec w = .rat v) →
    ((1 ≤ s.tf.toRat ∧ 0 ≤ v) ∨ v = 0 → exec (.chk ws) s = .next { s with resp := some (okResponse false 0 []) }) ∧
    (∀ b < s.nch, s.tf.toRat < 1 → 0 < v → s.mask.getLsbD b = true → (∀ c < b, s.mask.getLsbD c = false) →
      exec (.chk ws) s = .next { s with hit := true, hitch := b, resp := some (okResponse false 0 []) })

/-! ## The whole machine -/

/-- Every step keeps a good state good: the stores keep their sizes, the counters and indices their ranges, the mask
its bits below NCH, and the threshold factor stays finite and positive (R26 to R36). Where an energy or the threshold
is not finite, which R14 and U4 leave unspecified, that CHK latches a channel below NCH is the model's choice (log 8). -/
def Obligations.GoodStateKept : Prop :=
  ∀ s t : State, s.wf = true → step s = .next t → t.wf = true

/-- The state right after reset is good. The model's parameters of the reset machine are log 2's choice. -/
def Obligations.ResetStateGood : Prop :=
  State.reset.wf = true ∧ State.reset.initd = false

/-- R38: the write sets. What a command can change is what the table gives it, and for a command of one channel that
channel alone. -/
def Obligations.WriteSets : Prop :=
  ∀ (i : Instr) (s t : State), exec i s = .next t →
    (t.initd ≠ s.initd ∨ t.nch ≠ s.nch → ∃ n, i = .init n) ∧
    (t.deccnt ≠ s.deccnt → (∃ n, i = .init n) ∨ i = .reset ∨ ∃ x, i = .adds x) ∧
    (t.firh ≠ s.firh → (∃ n, i = .init n) ∨ i = .reset ∨ (∃ x, i = .adds x) ∨ (∃ x run, i = .firp x run) ∨
      i = .firrst) ∧
    (t.iir ≠ s.iir → (∃ n, i = .init n) ∨ i = .reset ∨ (∃ x, i = .adds x) ∨ (∃ c x, i = .iirp c x) ∨
      (∃ c, i = .iirrst c) ∨ i = .iirrsta) ∧
    (t.enw ≠ s.enw ∨ t.ensum ≠ s.ensum → (∃ n, i = .init n) ∨ i = .reset ∨ (∃ x, i = .adds x) ∨
      (∃ c x, i = .enupd c x) ∨ i = .enrsta) ∧
    (t.mask ≠ s.mask → (∃ n, i = .init n) ∨ (∃ m, i = .setch m) ∨ i = .detrst) ∧
    (t.tf ≠ s.tf → (∃ n, i = .init n) ∨ (∃ f, i = .settf f) ∨ i = .detrst) ∧
    (t.ignore ≠ s.ignore → (∃ n, i = .init n) ∨ (∃ g, i = .ign g) ∨ i = .detrst) ∧
    (t.hit ≠ s.hit → (∃ n, i = .init n) ∨ (∃ ev, i = .chk ev) ∨ i = .clrhit ∨ i = .detrst) ∧
    (t.hitch ≠ s.hitch → (∃ n, i = .init n) ∨ (∃ ev, i = .chk ev) ∨ i = .detrst) ∧
    (∀ c d, c ≠ d → (i = .iirrst c ∨ ∃ x, i = .iirp c x) → iirOf t d = iirOf s d) ∧
    (∀ c d x, c ≠ d → i = .enupd c x → enwOf t d = enwOf s d ∧ ensumOf t d = ensumOf s d)

/-- R56: the nine read-only commands change no state, and repeating one gives the same response. -/
def Obligations.ReadsHaveNoSideEffect : Prop :=
  ∀ (i : Instr) (s t : State), readOnlyCommand i = true → exec i s = .next t →
    t = { s with resp := t.resp } ∧ exec i t = .next t
end

