-- ==== Sys2Proof/Laws/State.lean ====
section
/-!
SUPPORT. The state after each named update, field by field, true by rfl: what an operation writes, and that it leaves
the other fields. No later proof unfolds a record update.
-/

namespace Sys2Proof.Machine

/-! ### After taking the event at the head of the port -/

@[simp] theorem takePort_nch (s : State) : (takePort s).nch = s.nch := rfl
@[simp] theorem takePort_deccnt (s : State) : (takePort s).deccnt = s.deccnt := rfl
@[simp] theorem takePort_firh (s : State) : (takePort s).firh = s.firh := rfl
@[simp] theorem takePort_iir (s : State) : (takePort s).iir = s.iir := rfl
@[simp] theorem takePort_enw (s : State) : (takePort s).enw = s.enw := rfl
@[simp] theorem takePort_ensum (s : State) : (takePort s).ensum = s.ensum := rfl
@[simp] theorem takePort_mask (s : State) : (takePort s).mask = s.mask := rfl
@[simp] theorem takePort_tf (s : State) : (takePort s).tf = s.tf := rfl
@[simp] theorem takePort_ignore (s : State) : (takePort s).ignore = s.ignore := rfl
@[simp] theorem takePort_hit (s : State) : (takePort s).hit = s.hit := rfl
@[simp] theorem takePort_hitch (s : State) : (takePort s).hitch = s.hitch := rfl
@[simp] theorem takePort_cfg (s : State) : (takePort s).cfg = s.cfg := rfl
@[simp] theorem takePort_initd (s : State) : (takePort s).initd = s.initd := rfl
@[simp] theorem takePort_port (s : State) : (takePort s).port = s.port.tail := rfl
@[simp] theorem takePort_resp (s : State) : (takePort s).resp = s.resp := rfl
@[simp] theorem takePort_hwresets (s : State) : (takePort s).hwresets = s.hwresets := rfl

/-! ### After placing an event at the port -/

@[simp] theorem placePort_nch (e : PortEvent) (s : State) : (placePort e s).nch = s.nch := rfl
@[simp] theorem placePort_deccnt (e : PortEvent) (s : State) : (placePort e s).deccnt = s.deccnt := rfl
@[simp] theorem placePort_firh (e : PortEvent) (s : State) : (placePort e s).firh = s.firh := rfl
@[simp] theorem placePort_iir (e : PortEvent) (s : State) : (placePort e s).iir = s.iir := rfl
@[simp] theorem placePort_enw (e : PortEvent) (s : State) : (placePort e s).enw = s.enw := rfl
@[simp] theorem placePort_ensum (e : PortEvent) (s : State) : (placePort e s).ensum = s.ensum := rfl
@[simp] theorem placePort_mask (e : PortEvent) (s : State) : (placePort e s).mask = s.mask := rfl
@[simp] theorem placePort_tf (e : PortEvent) (s : State) : (placePort e s).tf = s.tf := rfl
@[simp] theorem placePort_ignore (e : PortEvent) (s : State) : (placePort e s).ignore = s.ignore := rfl
@[simp] theorem placePort_hit (e : PortEvent) (s : State) : (placePort e s).hit = s.hit := rfl
@[simp] theorem placePort_hitch (e : PortEvent) (s : State) : (placePort e s).hitch = s.hitch := rfl
@[simp] theorem placePort_cfg (e : PortEvent) (s : State) : (placePort e s).cfg = s.cfg := rfl
@[simp] theorem placePort_initd (e : PortEvent) (s : State) : (placePort e s).initd = s.initd := rfl
@[simp] theorem placePort_port (e : PortEvent) (s : State) : (placePort e s).port = e :: s.port := rfl
@[simp] theorem placePort_resp (e : PortEvent) (s : State) : (placePort e s).resp = s.resp := rfl
@[simp] theorem placePort_hwresets (e : PortEvent) (s : State) : (placePort e s).hwresets = s.hwresets := rfl

/-! ### After HWRESET (R215) -/

@[simp] theorem hwReset_nch (s : State) : (hwReset s).nch = (Config.regsAfterHwReset s.hwresets).nch := rfl
@[simp] theorem hwReset_deccnt (s : State) : (hwReset s).deccnt = (Config.regsAfterHwReset s.hwresets).deccnt := rfl
@[simp] theorem hwReset_firh (s : State) : (hwReset s).firh = (Config.regsAfterHwReset s.hwresets).firh := rfl
@[simp] theorem hwReset_iir (s : State) : (hwReset s).iir = (Config.regsAfterHwReset s.hwresets).iir := rfl
@[simp] theorem hwReset_enw (s : State) : (hwReset s).enw = (Config.regsAfterHwReset s.hwresets).enw := rfl
@[simp] theorem hwReset_ensum (s : State) : (hwReset s).ensum = (Config.regsAfterHwReset s.hwresets).ensum := rfl
@[simp] theorem hwReset_mask (s : State) : (hwReset s).mask = (Config.regsAfterHwReset s.hwresets).mask := rfl
@[simp] theorem hwReset_tf (s : State) : (hwReset s).tf = (Config.regsAfterHwReset s.hwresets).tf := rfl
@[simp] theorem hwReset_ignore (s : State) : (hwReset s).ignore = (Config.regsAfterHwReset s.hwresets).ignore := rfl
@[simp] theorem hwReset_hit (s : State) : (hwReset s).hit = (Config.regsAfterHwReset s.hwresets).hit := rfl
@[simp] theorem hwReset_hitch (s : State) : (hwReset s).hitch = (Config.regsAfterHwReset s.hwresets).hitch := rfl
@[simp] theorem hwReset_cfg (s : State) : (hwReset s).cfg = s.cfg := rfl
@[simp] theorem hwReset_initd (s : State) : (hwReset s).initd = false := rfl
@[simp] theorem hwReset_port (s : State) : (hwReset s).port = s.port := rfl
@[simp] theorem hwReset_resp (s : State) : (hwReset s).resp = none := rfl
@[simp] theorem hwReset_hwresets (s : State) : (hwReset s).hwresets = s.hwresets + 1 := rfl

/-! ### After `FIR.reset` (R113) -/

@[simp] theorem firReset_nch (s : State) : (firReset s).nch = s.nch := rfl
@[simp] theorem firReset_deccnt (s : State) : (firReset s).deccnt = s.deccnt := rfl
@[simp] theorem firReset_firh (s : State) : (firReset s).firh = s.firh.reset s.num.zero := rfl
@[simp] theorem firReset_iir (s : State) : (firReset s).iir = s.iir := rfl
@[simp] theorem firReset_enw (s : State) : (firReset s).enw = s.enw := rfl
@[simp] theorem firReset_ensum (s : State) : (firReset s).ensum = s.ensum := rfl
@[simp] theorem firReset_mask (s : State) : (firReset s).mask = s.mask := rfl
@[simp] theorem firReset_tf (s : State) : (firReset s).tf = s.tf := rfl
@[simp] theorem firReset_ignore (s : State) : (firReset s).ignore = s.ignore := rfl
@[simp] theorem firReset_hit (s : State) : (firReset s).hit = s.hit := rfl
@[simp] theorem firReset_hitch (s : State) : (firReset s).hitch = s.hitch := rfl
@[simp] theorem firReset_cfg (s : State) : (firReset s).cfg = s.cfg := rfl
@[simp] theorem firReset_initd (s : State) : (firReset s).initd = s.initd := rfl
@[simp] theorem firReset_port (s : State) : (firReset s).port = s.port := rfl
@[simp] theorem firReset_resp (s : State) : (firReset s).resp = s.resp := rfl
@[simp] theorem firReset_hwresets (s : State) : (firReset s).hwresets = s.hwresets := rfl

/-! ### After `FIR.process` (R111) -/

@[simp] theorem firProcess_nch (x : NumVal) (run : Bool) (s : State) : (firProcess x run s).2.nch = s.nch := rfl
@[simp] theorem firProcess_deccnt (x : NumVal) (run : Bool) (s : State) : (firProcess x run s).2.deccnt = s.deccnt := rfl
@[simp] theorem firProcess_firh (x : NumVal) (run : Bool) (s : State) : (firProcess x run s).2.firh = s.firh.save x := rfl
@[simp] theorem firProcess_iir (x : NumVal) (run : Bool) (s : State) : (firProcess x run s).2.iir = s.iir := rfl
@[simp] theorem firProcess_enw (x : NumVal) (run : Bool) (s : State) : (firProcess x run s).2.enw = s.enw := rfl
@[simp] theorem firProcess_ensum (x : NumVal) (run : Bool) (s : State) : (firProcess x run s).2.ensum = s.ensum := rfl
@[simp] theorem firProcess_mask (x : NumVal) (run : Bool) (s : State) : (firProcess x run s).2.mask = s.mask := rfl
@[simp] theorem firProcess_tf (x : NumVal) (run : Bool) (s : State) : (firProcess x run s).2.tf = s.tf := rfl
@[simp] theorem firProcess_ignore (x : NumVal) (run : Bool) (s : State) : (firProcess x run s).2.ignore = s.ignore := rfl
@[simp] theorem firProcess_hit (x : NumVal) (run : Bool) (s : State) : (firProcess x run s).2.hit = s.hit := rfl
@[simp] theorem firProcess_hitch (x : NumVal) (run : Bool) (s : State) : (firProcess x run s).2.hitch = s.hitch := rfl
@[simp] theorem firProcess_cfg (x : NumVal) (run : Bool) (s : State) : (firProcess x run s).2.cfg = s.cfg := rfl
@[simp] theorem firProcess_initd (x : NumVal) (run : Bool) (s : State) : (firProcess x run s).2.initd = s.initd := rfl
@[simp] theorem firProcess_port (x : NumVal) (run : Bool) (s : State) : (firProcess x run s).2.port = s.port := rfl
@[simp] theorem firProcess_resp (x : NumVal) (run : Bool) (s : State) : (firProcess x run s).2.resp = s.resp := rfl
@[simp] theorem firProcess_hwresets (x : NumVal) (run : Bool) (s : State) : (firProcess x run s).2.hwresets = s.hwresets := rfl

/-! ### After `IIR.reset` (R129) -/

@[simp] theorem iirReset_nch (c : Nat) (s : State) : (iirReset c s).nch = s.nch := rfl
@[simp] theorem iirReset_deccnt (c : Nat) (s : State) : (iirReset c s).deccnt = s.deccnt := rfl
@[simp] theorem iirReset_firh (c : Nat) (s : State) : (iirReset c s).firh = s.firh := rfl
@[simp] theorem iirReset_iir (c : Nat) (s : State) : (iirReset c s).iir = s.iir.set c ((iirOf s c).map (sectionReset s.num.zero)) := rfl
@[simp] theorem iirReset_enw (c : Nat) (s : State) : (iirReset c s).enw = s.enw := rfl
@[simp] theorem iirReset_ensum (c : Nat) (s : State) : (iirReset c s).ensum = s.ensum := rfl
@[simp] theorem iirReset_mask (c : Nat) (s : State) : (iirReset c s).mask = s.mask := rfl
@[simp] theorem iirReset_tf (c : Nat) (s : State) : (iirReset c s).tf = s.tf := rfl
@[simp] theorem iirReset_ignore (c : Nat) (s : State) : (iirReset c s).ignore = s.ignore := rfl
@[simp] theorem iirReset_hit (c : Nat) (s : State) : (iirReset c s).hit = s.hit := rfl
@[simp] theorem iirReset_hitch (c : Nat) (s : State) : (iirReset c s).hitch = s.hitch := rfl
@[simp] theorem iirReset_cfg (c : Nat) (s : State) : (iirReset c s).cfg = s.cfg := rfl
@[simp] theorem iirReset_initd (c : Nat) (s : State) : (iirReset c s).initd = s.initd := rfl
@[simp] theorem iirReset_port (c : Nat) (s : State) : (iirReset c s).port = s.port := rfl
@[simp] theorem iirReset_resp (c : Nat) (s : State) : (iirReset c s).resp = s.resp := rfl
@[simp] theorem iirReset_hwresets (c : Nat) (s : State) : (iirReset c s).hwresets = s.hwresets := rfl

/-! ### After `IIR.process` (R122) -/

@[simp] theorem iirProcess_nch (c : Nat) (x : NumVal) (s : State) : (iirProcess c x s).2.nch = s.nch := rfl
@[simp] theorem iirProcess_deccnt (c : Nat) (x : NumVal) (s : State) : (iirProcess c x s).2.deccnt = s.deccnt := rfl
@[simp] theorem iirProcess_firh (c : Nat) (x : NumVal) (s : State) : (iirProcess c x s).2.firh = s.firh := rfl
@[simp] theorem iirProcess_iir (c : Nat) (x : NumVal) (s : State) : (iirProcess c x s).2.iir = s.iir.set c (cascade s.num (sosRow s c) (iirOf s c) x).2 := rfl
@[simp] theorem iirProcess_enw (c : Nat) (x : NumVal) (s : State) : (iirProcess c x s).2.enw = s.enw := rfl
@[simp] theorem iirProcess_ensum (c : Nat) (x : NumVal) (s : State) : (iirProcess c x s).2.ensum = s.ensum := rfl
@[simp] theorem iirProcess_mask (c : Nat) (x : NumVal) (s : State) : (iirProcess c x s).2.mask = s.mask := rfl
@[simp] theorem iirProcess_tf (c : Nat) (x : NumVal) (s : State) : (iirProcess c x s).2.tf = s.tf := rfl
@[simp] theorem iirProcess_ignore (c : Nat) (x : NumVal) (s : State) : (iirProcess c x s).2.ignore = s.ignore := rfl
@[simp] theorem iirProcess_hit (c : Nat) (x : NumVal) (s : State) : (iirProcess c x s).2.hit = s.hit := rfl
@[simp] theorem iirProcess_hitch (c : Nat) (x : NumVal) (s : State) : (iirProcess c x s).2.hitch = s.hitch := rfl
@[simp] theorem iirProcess_cfg (c : Nat) (x : NumVal) (s : State) : (iirProcess c x s).2.cfg = s.cfg := rfl
@[simp] theorem iirProcess_initd (c : Nat) (x : NumVal) (s : State) : (iirProcess c x s).2.initd = s.initd := rfl
@[simp] theorem iirProcess_port (c : Nat) (x : NumVal) (s : State) : (iirProcess c x s).2.port = s.port := rfl
@[simp] theorem iirProcess_resp (c : Nat) (x : NumVal) (s : State) : (iirProcess c x s).2.resp = s.resp := rfl
@[simp] theorem iirProcess_hwresets (c : Nat) (x : NumVal) (s : State) : (iirProcess c x s).2.hwresets = s.hwresets := rfl

/-! ### After `EN.reset` (R137) -/

@[simp] theorem enReset_nch (c : Nat) (s : State) : (enReset c s).nch = s.nch := rfl
@[simp] theorem enReset_deccnt (c : Nat) (s : State) : (enReset c s).deccnt = s.deccnt := rfl
@[simp] theorem enReset_firh (c : Nat) (s : State) : (enReset c s).firh = s.firh := rfl
@[simp] theorem enReset_iir (c : Nat) (s : State) : (enReset c s).iir = s.iir := rfl
@[simp] theorem enReset_enw (c : Nat) (s : State) : (enReset c s).enw = s.enw.set c ((enwOf s c).reset s.num.zero) := rfl
@[simp] theorem enReset_ensum (c : Nat) (s : State) : (enReset c s).ensum = s.ensum.set c s.num.zero := rfl
@[simp] theorem enReset_mask (c : Nat) (s : State) : (enReset c s).mask = s.mask := rfl
@[simp] theorem enReset_tf (c : Nat) (s : State) : (enReset c s).tf = s.tf := rfl
@[simp] theorem enReset_ignore (c : Nat) (s : State) : (enReset c s).ignore = s.ignore := rfl
@[simp] theorem enReset_hit (c : Nat) (s : State) : (enReset c s).hit = s.hit := rfl
@[simp] theorem enReset_hitch (c : Nat) (s : State) : (enReset c s).hitch = s.hitch := rfl
@[simp] theorem enReset_cfg (c : Nat) (s : State) : (enReset c s).cfg = s.cfg := rfl
@[simp] theorem enReset_initd (c : Nat) (s : State) : (enReset c s).initd = s.initd := rfl
@[simp] theorem enReset_port (c : Nat) (s : State) : (enReset c s).port = s.port := rfl
@[simp] theorem enReset_resp (c : Nat) (s : State) : (enReset c s).resp = s.resp := rfl
@[simp] theorem enReset_hwresets (c : Nat) (s : State) : (enReset c s).hwresets = s.hwresets := rfl

/-! ### After `EN.update` (R136) -/

@[simp] theorem enUpdate_nch (c : Nat) (x : NumVal) (s : State) : (enUpdate c x s).2.nch = s.nch := rfl
@[simp] theorem enUpdate_deccnt (c : Nat) (x : NumVal) (s : State) : (enUpdate c x s).2.deccnt = s.deccnt := rfl
@[simp] theorem enUpdate_firh (c : Nat) (x : NumVal) (s : State) : (enUpdate c x s).2.firh = s.firh := rfl
@[simp] theorem enUpdate_iir (c : Nat) (x : NumVal) (s : State) : (enUpdate c x s).2.iir = s.iir := rfl
@[simp] theorem enUpdate_enw (c : Nat) (x : NumVal) (s : State) : (enUpdate c x s).2.enw = s.enw.set c ((enwOf s c).save (s.num.mul x x)) := rfl
@[simp] theorem enUpdate_ensum (c : Nat) (x : NumVal) (s : State) : (enUpdate c x s).2.ensum = s.ensum.set c (enUpdate c x s).1 := rfl
@[simp] theorem enUpdate_mask (c : Nat) (x : NumVal) (s : State) : (enUpdate c x s).2.mask = s.mask := rfl
@[simp] theorem enUpdate_tf (c : Nat) (x : NumVal) (s : State) : (enUpdate c x s).2.tf = s.tf := rfl
@[simp] theorem enUpdate_ignore (c : Nat) (x : NumVal) (s : State) : (enUpdate c x s).2.ignore = s.ignore := rfl
@[simp] theorem enUpdate_hit (c : Nat) (x : NumVal) (s : State) : (enUpdate c x s).2.hit = s.hit := rfl
@[simp] theorem enUpdate_hitch (c : Nat) (x : NumVal) (s : State) : (enUpdate c x s).2.hitch = s.hitch := rfl
@[simp] theorem enUpdate_cfg (c : Nat) (x : NumVal) (s : State) : (enUpdate c x s).2.cfg = s.cfg := rfl
@[simp] theorem enUpdate_initd (c : Nat) (x : NumVal) (s : State) : (enUpdate c x s).2.initd = s.initd := rfl
@[simp] theorem enUpdate_port (c : Nat) (x : NumVal) (s : State) : (enUpdate c x s).2.port = s.port := rfl
@[simp] theorem enUpdate_resp (c : Nat) (x : NumVal) (s : State) : (enUpdate c x s).2.resp = s.resp := rfl
@[simp] theorem enUpdate_hwresets (c : Nat) (x : NumVal) (s : State) : (enUpdate c x s).2.hwresets = s.hwresets := rfl

end Sys2Proof.Machine
end

