-- ==== Sys2Proof/Laws/Ops.lean ====
section
/-!
SUPPORT. What each shared operation can do, said once: the delay line's reads (R102 to R105), answering and refusing
(R196), the `INITD` check, and the loop over the channels.
-/

namespace Sys2Proof.Machine

/-! ### Delay lines -/

@[simp] theorem DelayLine.capacity_create (z : NumVal) (n : Nat) : (DelayLine.create z n).capacity = n := by
  simp [DelayLine.create, DelayLine.capacity]

@[simp] theorem DelayLine.capacity_save (d : DelayLine) (v : NumVal) : (d.save v).capacity = d.capacity := by
  simp [DelayLine.save, DelayLine.capacity]

@[simp] theorem DelayLine.capacity_reset (z : NumVal) (d : DelayLine) : (d.reset z).capacity = d.capacity := by
  simp [DelayLine.reset, DelayLine.capacity]

/-- A reset line is a created one of the same capacity (R105). -/
theorem DelayLine.reset_eq_create (z : NumVal) (d : DelayLine) : d.reset z = DelayLine.create z d.capacity := rfl

/-- The newest element after a save (R103). -/
theorem DelayLine.read_save_zero (z : NumVal) (d : DelayLine) (v : NumVal) (h : 0 < d.capacity) :
    (d.save v).read z 0 = v := by
  cases d with
  | mk hist => cases hist with
    | nil => simp [DelayLine.capacity] at h
    | cons a l => simp [DelayLine.save, DelayLine.read]

/-- An older element after a save (R103): the save moves it one place on. -/
theorem DelayLine.read_save_succ (z : NumVal) (d : DelayLine) (v : NumVal) (k : Nat) (h : k + 1 < d.capacity) :
    (d.save v).read z (k + 1) = d.read z k := by
  simp only [DelayLine.capacity] at h
  simp [DelayLine.save, DelayLine.read, List.getD_eq_getElem?_getD, h, Nat.lt_of_succ_lt h]

/-- At or beyond the capacity a read gives `zero` (R104). -/
theorem DelayLine.read_beyond (z : NumVal) (d : DelayLine) (k : Nat) (h : d.capacity ≤ k) : d.read z k = z := by
  simp only [DelayLine.capacity] at h
  simp [DelayLine.read, List.getD_eq_getElem?_getD, List.getElem?_eq_none h]

/-- Every element of a created line is `zero` (R102). -/
@[simp] theorem DelayLine.read_create (z : NumVal) (n k : Nat) : (DelayLine.create z n).read z k = z := by
  simp only [DelayLine.create, DelayLine.read, List.getD_eq_getElem?_getD, List.getElem?_replicate]
  split <;> rfl

/-! ### Answering and refusing -/

/-- A response writes `resp` and nothing else. -/
theorem respond_next (b : Bool) (r : Nat) (p : List Word) (s : State) :
    respond b r p s = .next { s with resp := some (okResponse b r p) } := rfl

/-- A refusal writes `resp` and nothing else (R196). -/
theorem raise_next (st : Status) (s : State) : raise st s = .next { s with resp := some (errorResponse st) } := rfl

theorem whenInit_true (s : State) (body : Result) (h : s.initd = true) : whenInit s body = body := by
  simp [whenInit, h]

theorem whenInit_false (s : State) (body : Result) (h : s.initd = false) :
    whenInit s body = .next { s with resp := some (errorResponse .errUninit) } := by
  simp [whenInit, h, raise]

/-- What a command behind the `INITD` check can answer: its body once initialised, ERR_UNINIT before. -/
theorem whenInit_cases {s t : State} {body : Result} (h : whenInit s body = .next t) :
    (s.initd = true ∧ body = .next t) ∨
    (s.initd = false ∧ t = { s with resp := some (errorResponse .errUninit) }) := by
  unfold whenInit at h
  split at h
  · exact .inl ⟨‹_›, h⟩
  · rename_i hi
    simp only [raise, Host.Outcome.next.injEq] at h
    exact .inr ⟨by simpa using hi, h.symm⟩

/-! ### The loop over the channels -/

@[simp] theorem forChannels_zero (body : Nat → State → State) (s : State) : forChannels 0 body s = s := rfl

/-- The last channel's turn comes after those of the channels below it (R11). -/
theorem forChannels_succ (n : Nat) (body : Nat → State → State) (s : State) :
    forChannels (n + 1) body s = body n (forChannels n body s) := by
  simp [forChannels, List.range_succ]

/-- What every turn keeps, the loop keeps. -/
theorem forChannels_keeps (P : State → Prop) (n : Nat) (body : Nat → State → State) (s : State)
    (hs : P s) (hb : ∀ c t, c < n → P t → P (body c t)) : P (forChannels n body s) := by
  induction n with
  | zero => exact hs
  | succ n ih =>
    rw [forChannels_succ]
    exact hb n _ (Nat.lt_succ_self n) (ih fun c t hc ht => hb c t (Nat.lt_succ_of_lt hc) ht)

end Sys2Proof.Machine
end

