-- ==== Sys2Proof/Laws/Channels.lean ====
section
/-!
SUPPORT. The per-channel stores: what an operation of one channel does to the entries of that channel and of the
others (R106, R130), and what a loop over the channels leaves in each (R125, R141, R153, R155).
-/

namespace Sys2Proof.Machine

/-! ### One channel -/

/-- Reading entry `d` of a list after entry `c` was set. -/
theorem getD_set {α : Type} (l : List α) (c d : Nat) (v w : α) :
    (l.set c v).getD d w = if d = c ∧ c < l.length then v else l.getD d w := by
  simp only [List.getD_eq_getElem?_getD, List.getElem?_set]
  by_cases h : c = d
  · subst h
    by_cases hl : c < l.length
    · simp [hl]
    · simp [hl]
  · simp [h, Ne.symm h]

theorem iirOf_iirProcess (c d : Nat) (x : NumVal) (s : State) :
    iirOf (iirProcess c x s).2 d =
      if d = c ∧ c < s.iir.length then (cascade s.num (sosRow s c) (iirOf s c) x).2 else iirOf s d := by
  simp only [iirOf, iirProcess_iir, getD_set]

theorem iirOf_iirReset (c d : Nat) (s : State) :
    iirOf (iirReset c s) d =
      if d = c ∧ c < s.iir.length then (iirOf s c).map (sectionReset s.num.zero) else iirOf s d := by
  simp only [iirOf, iirReset_iir, getD_set]

theorem enwOf_enUpdate (c d : Nat) (x : NumVal) (s : State) :
    enwOf (enUpdate c x s).2 d =
      if d = c ∧ c < s.enw.length then (enwOf s c).save (s.num.mul x x) else enwOf s d := by
  simp only [enwOf, enUpdate_enw, getD_set]

theorem ensumOf_enUpdate (c d : Nat) (x : NumVal) (s : State) :
    ensumOf (enUpdate c x s).2 d = if d = c ∧ c < s.ensum.length then (enUpdate c x s).1 else ensumOf s d := by
  simp only [ensumOf, enUpdate_ensum, enUpdate_cfg, State.num, getD_set]

theorem enwOf_enReset (c d : Nat) (s : State) :
    enwOf (enReset c s) d = if d = c ∧ c < s.enw.length then (enwOf s c).reset s.num.zero else enwOf s d := by
  simp only [enwOf, enReset_enw, getD_set]

theorem ensumOf_enReset (c d : Nat) (s : State) :
    ensumOf (enReset c s) d = if d = c ∧ c < s.ensum.length then s.num.zero else ensumOf s d := by
  simp only [ensumOf, enReset_ensum, enReset_cfg, State.num, getD_set]

/-- A cascade has as many sections after as before (R122). -/
@[simp] theorem cascade_length (N : NumOps) (qs : List Sos) (hs : List IirSection) (v : NumVal) :
    (cascade N qs hs v).2.length = hs.length := by
  induction qs generalizing hs v with
  | nil => cases hs <;> rfl
  | cons q qs ih => cases hs with
    | nil => rfl
    | cons h hs => simp [cascade, ih]

/-- A cascade keeps the capacities of its sections. -/
theorem cascade_sized (N : NumOps) (qs : List Sos) (hs : List IirSection) (v : NumVal)
    (h : hs.all (fun x => decide (x.iirx.capacity = 2) && decide (x.iiry.capacity = 2)) = true) :
    (cascade N qs hs v).2.all (fun x => decide (x.iirx.capacity = 2) && decide (x.iiry.capacity = 2)) = true := by
  induction qs generalizing hs v with
  | nil => cases hs <;> exact h
  | cons q qs ih => cases hs with
    | nil => exact h
    | cons x xs =>
      simp only [List.all_cons, Bool.and_eq_true, decide_eq_true_eq] at h
      simp only [cascade, List.all_cons, Bool.and_eq_true, decide_eq_true_eq]
      exact ⟨by simpa [sosStep] using h.1, ih xs _ h.2⟩

/-! ### The fan-out of one channel (R155) -/

@[simp] theorem channelTick_iir_length (y : NumVal) (c : Nat) (s : State) :
    (channelTick y c s).iir.length = s.iir.length := by simp [channelTick]

@[simp] theorem channelTick_enw_length (y : NumVal) (c : Nat) (s : State) :
    (channelTick y c s).enw.length = s.enw.length := by simp [channelTick]

@[simp] theorem channelTick_ensum_length (y : NumVal) (c : Nat) (s : State) :
    (channelTick y c s).ensum.length = s.ensum.length := by simp [channelTick]

/-- The fan-out writes the three per-channel stores and nothing else. -/
theorem channelTick_frame (y : NumVal) (c : Nat) (s : State) :
    channelTick y c s = { s with
      iir := (channelTick y c s).iir, enw := (channelTick y c s).enw, ensum := (channelTick y c s).ensum } := rfl

theorem iirOf_channelTick (y : NumVal) (c d : Nat) (s : State) :
    iirOf (channelTick y c s) d =
      if d = c ∧ c < s.iir.length then (cascade s.num (sosRow s c) (iirOf s c) y).2 else iirOf s d := by
  have h : iirOf (channelTick y c s) d = iirOf (iirProcess c y s).2 d := by simp [iirOf, channelTick]
  rw [h, iirOf_iirProcess]

theorem enwOf_channelTick (y : NumVal) (c d : Nat) (s : State) :
    enwOf (channelTick y c s) d =
      if d = c ∧ c < s.enw.length then
        (enwOf s c).save (s.num.mul (iirProcess c y s).1 (iirProcess c y s).1) else enwOf s d := by
  have h : enwOf (channelTick y c s) d = enwOf (enUpdate c (iirProcess c y s).1 (iirProcess c y s).2).2 d := rfl
  rw [h, enwOf_enUpdate]
  rfl

theorem ensumOf_channelTick (y : NumVal) (c d : Nat) (s : State) :
    ensumOf (channelTick y c s) d =
      if d = c ∧ c < s.ensum.length then (enUpdate c (iirProcess c y s).1 s).1 else ensumOf s d := by
  have h : ensumOf (channelTick y c s) d = ensumOf (enUpdate c (iirProcess c y s).1 (iirProcess c y s).2).2 d := rfl
  rw [h, ensumOf_enUpdate]
  rfl

/-! ### The loops -/

/-- The fan-out loop writes the three per-channel stores and nothing else, and keeps their sizes. -/
theorem forChannels_channelTick_frame (y : NumVal) (n : Nat) (s : State) :
    let t := forChannels n (channelTick y) s
    t = { s with iir := t.iir, enw := t.enw, ensum := t.ensum } ∧
    t.iir.length = s.iir.length ∧ t.enw.length = s.enw.length ∧ t.ensum.length = s.ensum.length := by
  induction n with
  | zero => exact ⟨rfl, rfl, rfl, rfl⟩
  | succ n ih =>
    simp only [forChannels_succ, channelTick_iir_length, channelTick_enw_length, channelTick_ensum_length]
    have key : ∀ (iir : List (List IirSection)) (enw : List DelayLine) (ensum : List NumVal),
        ({ forChannels n (channelTick y) s with iir := iir, enw := enw, ensum := ensum } : State) =
          { s with iir := iir, enw := enw, ensum := ensum } := by
      intro _ _ _
      rw [ih.1]
    exact ⟨(channelTick_frame y n _).trans (key _ _ _), ih.2⟩

/-- What the fan-out loop leaves in each channel: its own turn's result, computed from its own entries before. -/
theorem forChannels_channelTick (y : NumVal) (n d : Nat) (s : State)
    (hi : n ≤ s.iir.length) (hw : n ≤ s.enw.length) (hs : n ≤ s.ensum.length) :
    iirOf (forChannels n (channelTick y) s) d =
      (if d < n then (cascade s.num (sosRow s d) (iirOf s d) y).2 else iirOf s d) ∧
    enwOf (forChannels n (channelTick y) s) d =
      (if d < n then (enwOf s d).save (s.num.mul (iirProcess d y s).1 (iirProcess d y s).1) else enwOf s d) ∧
    ensumOf (forChannels n (channelTick y) s) d =
      (if d < n then (enUpdate d (iirProcess d y s).1 s).1 else ensumOf s d) := by
  induction n generalizing d with
  | zero => simp
  | succ n ih =>
    have ih' := fun e => ih e (by omega) (by omega) (by omega)
    obtain ⟨hf, h1, h2, h3⟩ := forChannels_channelTick_frame y n s
    have hc : (forChannels n (channelTick y) s).cfg = s.cfg := by rw [hf]
    have hn : (forChannels n (channelTick y) s).num = s.num := by rw [State.num, State.num, hc]
    have hr : ∀ e, sosRow (forChannels n (channelTick y) s) e = sosRow s e := by intro e; simp [sosRow, hc]
    rw [forChannels_succ, iirOf_channelTick, enwOf_channelTick, ensumOf_channelTick]
    have hp : (iirProcess n y (forChannels n (channelTick y) s)).1 = (iirProcess n y s).1 := by
      simp only [iirProcess, hn, hr, (ih' n).1, Nat.lt_irrefl, if_false]
    have he : (enUpdate n (iirProcess n y s).1 (forChannels n (channelTick y) s)).1 =
        (enUpdate n (iirProcess n y s).1 s).1 := by
      simp only [enUpdate, hn, hc, (ih' n).2.1, (ih' n).2.2, Nat.lt_irrefl, if_false]
    rw [hp, he, hn, hr, (ih' n).1, (ih' n).2.1, (ih' d).1, (ih' d).2.1, (ih' d).2.2, h1, h2, h3]
    by_cases hd : d = n
    · subst hd
      simp [Nat.lt_of_succ_le hi, Nat.lt_of_succ_le hw, Nat.lt_of_succ_le hs]
    · by_cases hlt : d < n
      · simp [hd, hlt, Nat.lt_succ_of_lt hlt]
      · simp [hd, hlt, show ¬ d < n + 1 by omega]

/-- A list all of whose entries are one value is that value repeated. -/
theorem eq_replicate_of_getD {α : Type} (l : List α) (n : Nat) (v w : α) (hl : l.length = n)
    (h : ∀ d < n, l.getD d w = v) : l = List.replicate n v := by
  apply List.ext_getElem (by simp [hl])
  intro k h1 h2
  have := h k (by omega)
  simpa [List.getD_eq_getElem?_getD, List.getElem?_eq_getElem h1] using this

/-- The loop of IIRRSTA writes the filter histories alone, and resets each channel's. -/
theorem forChannels_iirReset (n : Nat) (s : State) (hn : n ≤ s.iir.length) :
    let t := forChannels n iirReset s
    t = { s with iir := t.iir } ∧ t.iir.length = s.iir.length ∧
    ∀ d, iirOf t d = if d < n then (iirOf s d).map (sectionReset s.num.zero) else iirOf s d := by
  induction n with
  | zero => exact ⟨rfl, rfl, by simp⟩
  | succ n ih =>
    obtain ⟨h1, h2, h3⟩ := ih (by omega)
    have hc : (forChannels n iirReset s).num = s.num := by rw [h1]
    simp only [forChannels_succ]
    have key : ∀ iir : List (List IirSection),
        ({ forChannels n iirReset s with iir := iir } : State) = { s with iir := iir } := by
      intro _
      rw [h1]
    refine ⟨key _, by simp [h2], ?_⟩
    · intro d
      rw [iirOf_iirReset, hc, h3, h3, h2]
      by_cases hd : d = n
      · subst hd; simp [Nat.lt_of_succ_le hn]
      · by_cases hlt : d < n
        · simp [hd, hlt, Nat.lt_succ_of_lt hlt]
        · simp [hd, hlt, show ¬ d < n + 1 by omega]

/-- The loop of ENRSTA writes the windows and the energies alone, and resets each channel's. -/
theorem forChannels_enReset (n : Nat) (s : State) (hw : n ≤ s.enw.length) (hs : n ≤ s.ensum.length) :
    let t := forChannels n enReset s
    t = { s with enw := t.enw, ensum := t.ensum } ∧ t.enw.length = s.enw.length ∧
    t.ensum.length = s.ensum.length ∧
    ∀ d, enwOf t d = (if d < n then (enwOf s d).reset s.num.zero else enwOf s d) ∧
      ensumOf t d = (if d < n then s.num.zero else ensumOf s d) := by
  induction n with
  | zero => exact ⟨rfl, rfl, rfl, by simp⟩
  | succ n ih =>
    obtain ⟨h1, h2, h3, h4⟩ := ih (by omega) (by omega)
    have hc : (forChannels n enReset s).num = s.num := by rw [h1]
    simp only [forChannels_succ]
    have key : ∀ (enw : List DelayLine) (ensum : List NumVal),
        ({ forChannels n enReset s with enw := enw, ensum := ensum } : State) =
          { s with enw := enw, ensum := ensum } := by
      intro _ _
      rw [h1]
    refine ⟨key _ _, by simp [h2], by simp [h3], ?_⟩
    · intro d
      rw [enwOf_enReset, ensumOf_enReset, hc, (h4 n).1, (h4 d).1, (h4 d).2, h2, h3]
      by_cases hd : d = n
      · subst hd; simp [Nat.lt_of_succ_le hw, Nat.lt_of_succ_le hs]
      · by_cases hlt : d < n
        · simp [hd, hlt, Nat.lt_succ_of_lt hlt]
        · simp [hd, hlt, show ¬ d < n + 1 by omega]

/-- RESET's loop is the two component loops one after the other: they write different stores. -/
theorem forChannels_resetChannel (n : Nat) (s : State) :
    forChannels n resetChannel s = forChannels n enReset (forChannels n iirReset s) := by
  have comm : ∀ (m c : Nat) (t : State), iirReset c (forChannels m enReset t) =
      forChannels m enReset (iirReset c t) := by
    intro m c t
    induction m with
    | zero => rfl
    | succ m ih => rw [forChannels_succ, forChannels_succ, ← ih]; rfl
  induction n with
  | zero => rfl
  | succ n ih => rw [forChannels_succ, forChannels_succ, forChannels_succ, ih, resetChannel, comm]

end Sys2Proof.Machine
end

