-- ==== Sys2Proof/Laws/Decode.lean ====
section
/-!
SUPPORT. The header's fields as arithmetic on the word's number, and what the encoder puts into each (R72).
-/

namespace Sys2Proof

theorem opField_eq (h : Word) : opField h = h.toNat % 2 ^ 8 := by
  simp [opField, BitVec.extractLsb'_toNat]

theorem chField_eq (h : Word) : chField h = h.toNat / 2 ^ 8 % 2 ^ 8 := by
  simp [chField, BitVec.extractLsb'_toNat, Nat.shiftRight_eq_div_pow]

theorem idxField_eq (h : Word) : idxField h = h.toNat / 2 ^ 16 % 2 ^ 16 := by
  simp [idxField, BitVec.extractLsb'_toNat, Nat.shiftRight_eq_div_pow]

theorem fField_eq (h : Word) : fField h = decide (h.toNat / 2 ^ 32 % 2 = 1) := by
  have e : (h.extractLsb' 32 1).toNat = h.toNat / 2 ^ 32 % 2 := by
    simp [BitVec.extractLsb'_toNat, Nat.shiftRight_eq_div_pow]
  rw [fField, Bool.eq_iff_iff, beq_iff_eq, decide_eq_true_eq, ← e, ← BitVec.toNat_inj]
  rfl

theorem rsvField_eq (h : Word) : rsvField h = h.toNat / 2 ^ 33 := by
  have := h.isLt
  simp only [rsvField, BitVec.extractLsb'_toNat, Nat.shiftRight_eq_div_pow]
  omega

theorem mkHeader_toNat (op ch idx : Nat) (f : Bool) (ho : op < 256) (hc : ch < 256) (hi : idx < 65536) :
    (mkHeader op ch idx f).toNat = op + ch * 2 ^ 8 + idx * 2 ^ 16 + f.toNat * 2 ^ 32 := by
  have : f.toNat ≤ 1 := Bool.toNat_le f
  simp only [mkHeader, BitVec.toNat_ofNat]
  omega

/-- The five fields of a header the encoder builds are the ones it was given (R72). -/
theorem fields_mkHeader (op ch idx : Nat) (f : Bool) (ho : op < 256) (hc : ch < 256) (hi : idx < 65536) :
    opField (mkHeader op ch idx f) = op ∧ chField (mkHeader op ch idx f) = ch ∧
    idxField (mkHeader op ch idx f) = idx ∧ fField (mkHeader op ch idx f) = f ∧
    rsvField (mkHeader op ch idx f) = 0 := by
  rw [opField_eq, chField_eq, idxField_eq, fField_eq, rsvField_eq, mkHeader_toNat op ch idx f ho hc hi]
  refine ⟨?_, ?_, ?_, ?_, ?_⟩ <;> cases f <;> simp only [Bool.toNat_true, Bool.toNat_false] <;>
    first | omega | (simp only [decide_eq_true_eq, decide_eq_false_iff_not]; omega)

/-- A header whose reserved field is zero is built from its five fields (R72). -/
theorem mkHeader_fields (h : Word) (hr : rsvField h = 0) :
    mkHeader (opField h) (chField h) (idxField h) (fField h) = h := by
  rw [← BitVec.toNat_inj]
  rw [rsvField_eq] at hr
  have hf : (fField h).toNat = h.toNat / 2 ^ 32 % 2 := by
    rw [fField_eq]
    rcases Nat.mod_two_eq_zero_or_one (h.toNat / 2 ^ 32) with hb | hb <;> rw [hb] <;> rfl
  simp only [mkHeader, BitVec.toNat_ofNat, hf]
  rw [opField_eq, chField_eq, idxField_eq]
  omega

end Sys2Proof
end

