-- ==== Sys2Proof/Laws/Detector.lean ====
section
/-!
SUPPORT. What the detector's operations can do, said once: the mask check (R166), the sort (R176), the scan (R177),
the decision where it is specified and where it is not (R14), and the latch (R171).
-/

namespace Sys2Proof.Machine

/-- The mask check bit by bit (R166). -/
theorem maskValid_iff (s : State) (m : Word) :
    maskValid s m = true ↔ ∀ c, s.nch ≤ c → c < 64 → m.getLsbD c = false := by
  simp only [maskValid, beq_iff_eq]
  constructor
  · intro h c h1 _
    have := congrArg (·.testBit (c - s.nch)) h
    simpa [Nat.testBit_shiftRight, show s.nch + (c - s.nch) = c by omega, BitVec.getLsbD] using this
  · intro h
    apply Nat.eq_of_testBit_eq
    intro k
    simp only [Nat.testBit_shiftRight, Nat.zero_testBit]
    by_cases hk : s.nch + k < 64
    · exact h _ (by omega) hk
    · exact BitVec.getLsbD_of_ge m _ (by omega)

/-- The mask check as a bound on the word's number. -/
theorem maskValid_iff_lt (s : State) (m : Word) : maskValid s m = true ↔ m.toNat < 2 ^ s.nch := by
  simp only [maskValid, beq_iff_eq, Nat.shiftRight_eq_div_pow, Nat.div_eq_zero_iff]
  have := Nat.two_pow_pos s.nch
  omega

/-! ### The sort (R176) -/

theorem insertByLe_perm (le : NumVal → NumVal → Bool) (v : NumVal) (l : List NumVal) :
    (insertByLe le v l).Perm (v :: l) := by
  induction l with
  | nil => exact .refl _
  | cons w rest ih =>
    simp only [insertByLe]
    split
    · exact .refl _
    · exact (ih.cons w).trans (.swap v w rest)

/-- The sorted vector is an arrangement of the vector. -/
theorem sortByLe_perm (le : NumVal → NumVal → Bool) (l : List NumVal) : (sortByLe le l).Perm l := by
  induction l with
  | nil => exact .refl _
  | cons v rest ih => exact (insertByLe_perm le v _).trans (ih.cons v)

@[simp] theorem sortByLe_length (le : NumVal → NumVal → Bool) (l : List NumVal) :
    (sortByLe le l).length = l.length := (sortByLe_perm le l).length_eq

/-! ### The scan (R177) -/

/-- What the scan selects is a channel of the vector that is enabled and above the threshold. -/
theorem scan_mem {N : NumOps} {mask : Word} {thr : NumVal} {ev : List NumVal} {c : Nat}
    (h : scan N mask thr ev = some c) : c < ev.length ∧ exceeds N mask thr ev c = true := by
  have key : ∀ (l : List Nat) (best : Option Nat),
      (∀ b, best = some b → b < ev.length ∧ exceeds N mask thr ev b = true) → (∀ k ∈ l, k < ev.length) →
      ∀ b, l.foldl (scanStep N mask thr ev) best = some b → b < ev.length ∧ exceeds N mask thr ev b = true := by
    intro l
    induction l with
    | nil => intro best hb _ b h; exact hb b h
    | cons k rest ih =>
      intro best hb hl
      refine ih _ ?_ fun j hj => hl j (List.mem_cons_of_mem _ hj)
      intro b h
      have hk := hl k List.mem_cons_self
      unfold scanStep at h
      split at h
      · rename_i he
        cases best with
        | none =>
          obtain rfl := Option.some.inj h
          exact ⟨hk, he⟩
        | some a =>
          dsimp only at h
          split at h <;> obtain rfl := Option.some.inj h
          · exact ⟨hk, he⟩
          · exact hb a rfl
      · exact hb b h
  exact key _ none (by simp) (by simp) c h

/-- With no channel above the threshold the scan selects none. -/
theorem scan_none {N : NumOps} {mask : Word} {thr : NumVal} {ev : List NumVal}
    (h : ∀ c < ev.length, exceeds N mask thr ev c = false) : scan N mask thr ev = none := by
  cases hs : scan N mask thr ev with
  | none => rfl
  | some c => exact absurd (scan_mem hs).2 (by simp [h c (scan_mem hs).1])

/-! ### The decision and the latch (R171) -/

/-- The decision's channel, specified or free, is a channel of the vector that is enabled. -/
theorem decision_mem {N : NumOps} {mask : Word} {tf : NumVal} {ev : List NumVal} {c : Nat}
    (h : decision N mask tf ev = some c) : c < ev.length ∧ mask.getLsbD c = true := by
  unfold decision at h
  split at h
  · have := scan_mem h
    simp only [exceeds, Bool.and_eq_true] at this
    exact ⟨this.1, this.2.1⟩
  · have := (Option.filter_eq_some_iff.mp h).2
    simpa using this

@[simp] theorem latch_none (s : State) : latch none s = s := rfl

@[simp] theorem latch_some (c : Nat) (s : State) : latch (some c) s = { s with hit := true, hitch := c } := rfl

end Sys2Proof.Machine
end

