-- ==== Sys2Proof/Laws/PerInstr.lean ====
section
/-!
SUPPORT. The family of per-instruction statements: the encoded header of a well-formed command selects its row, has
no reserved bit set, and leaves every field its format does not use zero (R72, R73, R78).
-/

namespace Sys2Proof.Laws.EncodedRow

/-- The format of each command (R78). -/
def format : Instr → CmdFormat
  | .init _ => .x
  | .reset => .n
  | .adds _ => .v
  | .firp _ _ => .fv
  | .firrst => .n
  | .getfirc _ => .x
  | .getfirn => .n
  | .iirp _ _ => .cv
  | .iirrst _ => .c
  | .iirrsta => .n
  | .getsosc _ _ => .cx
  | .getsoss => .n
  | .getsosn => .n
  | .enupd _ _ => .cv
  | .geten _ => .c
  | .getena => .n
  | .enrsta => .n
  | .setch _ => .m
  | .settf _ => .v
  | .ign _ => .f
  | .chk _ => .e
  | .gethit => .n
  | .gethitch => .n
  | .clrhit => .n
  | .detrst => .n

/-- The statement for one command. -/
def Statement (i : Instr) : Prop :=
  i.wellFormed = true →
    (rowOf (opField (encodeHeader i))).map OpRow.format = some (format i) ∧
    rsvField (encodeHeader i) = 0 ∧ (format i).unusedZero (encodeHeader i) = true

/-- What all of them rest on: the fields of a header the encoder builds. -/
theorem of_fields (i : Instr) (op ch idx : Nat) (f : Bool) (he : encodeHeader i = mkHeader op ch idx f)
    (ho : op < 256) (hc : ch < 256) (hi : idx < 65536) (hrow : (rowOf op).map OpRow.format = some (format i))
    (hu : (((format i).usesCh || ch == 0) && ((format i).usesIdx || idx == 0) && ((format i).usesF || !f)) = true) :
    Statement i := by
  obtain ⟨h1, h2, h3, h4, h5⟩ := fields_mkHeader op ch idx f ho hc hi
  intro _
  rw [he, h1, h5, CmdFormat.unusedZero, h2, h3, h4]
  exact ⟨hrow, rfl, hu⟩

theorem init (n : Nat) : Statement (.init n) :=
  fun h => of_fields _ 1 0 n false rfl (by decide) (by decide) (by simpa [Instr.wellFormed, indexFits] using h) rfl rfl h

theorem reset : Statement (.reset) :=
  of_fields _ 2 0 0 false rfl (by decide) (by decide) (by decide) rfl rfl

theorem adds (x : Word) : Statement (.adds x) :=
  of_fields _ 3 0 0 false rfl (by decide) (by decide) (by decide) rfl rfl

theorem firp (x : Word) (run : Bool) : Statement (.firp x run) :=
  of_fields _ 0x10 0 0 run rfl (by decide) (by decide) (by decide) rfl rfl

theorem firrst : Statement (.firrst) :=
  of_fields _ 0x11 0 0 false rfl (by decide) (by decide) (by decide) rfl rfl

theorem getfirc (i : Nat) : Statement (.getfirc i) :=
  fun h => of_fields _ 0x12 0 i false rfl (by decide) (by decide) (by simpa [Instr.wellFormed, indexFits] using h) rfl rfl h

theorem getfirn : Statement (.getfirn) :=
  of_fields _ 0x13 0 0 false rfl (by decide) (by decide) (by decide) rfl rfl

theorem iirp (c : Nat) (x : Word) : Statement (.iirp c x) :=
  fun h => of_fields _ 0x20 c 0 false rfl (by decide) (by simpa [Instr.wellFormed, channelFits] using h) (by decide) rfl rfl h

theorem iirrst (c : Nat) : Statement (.iirrst c) :=
  fun h => of_fields _ 0x21 c 0 false rfl (by decide) (by simpa [Instr.wellFormed, channelFits] using h) (by decide) rfl rfl h

theorem iirrsta : Statement (.iirrsta) :=
  of_fields _ 0x22 0 0 false rfl (by decide) (by decide) (by decide) rfl rfl

theorem getsosc (c : Nat) (j : Nat) : Statement (.getsosc c j) :=
  fun h => of_fields _ 0x23 c j false rfl (by decide) (by simp_all [Instr.wellFormed, channelFits, indexFits])
    (by simp_all [Instr.wellFormed, channelFits, indexFits]) rfl rfl h

theorem getsoss : Statement (.getsoss) :=
  of_fields _ 0x24 0 0 false rfl (by decide) (by decide) (by decide) rfl rfl

theorem getsosn : Statement (.getsosn) :=
  of_fields _ 0x25 0 0 false rfl (by decide) (by decide) (by decide) rfl rfl

theorem enupd (c : Nat) (x : Word) : Statement (.enupd c x) :=
  fun h => of_fields _ 0x30 c 0 false rfl (by decide) (by simpa [Instr.wellFormed, channelFits] using h) (by decide) rfl rfl h

theorem geten (c : Nat) : Statement (.geten c) :=
  fun h => of_fields _ 0x31 c 0 false rfl (by decide) (by simpa [Instr.wellFormed, channelFits] using h) (by decide) rfl rfl h

theorem getena : Statement (.getena) :=
  of_fields _ 0x32 0 0 false rfl (by decide) (by decide) (by decide) rfl rfl

theorem enrsta : Statement (.enrsta) :=
  of_fields _ 0x33 0 0 false rfl (by decide) (by decide) (by decide) rfl rfl

theorem setch (m : Word) : Statement (.setch m) :=
  of_fields _ 0x40 0 0 false rfl (by decide) (by decide) (by decide) rfl rfl

theorem settf (f : Word) : Statement (.settf f) :=
  of_fields _ 0x41 0 0 false rfl (by decide) (by decide) (by decide) rfl rfl

theorem ign (g : Bool) : Statement (.ign g) :=
  of_fields _ 0x42 0 0 g rfl (by decide) (by decide) (by decide) rfl rfl

theorem chk (ev : List Word) : Statement (.chk ev) :=
  of_fields _ 0x43 0 0 false rfl (by decide) (by decide) (by decide) rfl rfl

theorem gethit : Statement (.gethit) :=
  of_fields _ 0x44 0 0 false rfl (by decide) (by decide) (by decide) rfl rfl

theorem gethitch : Statement (.gethitch) :=
  of_fields _ 0x45 0 0 false rfl (by decide) (by decide) (by decide) rfl rfl

theorem clrhit : Statement (.clrhit) :=
  of_fields _ 0x46 0 0 false rfl (by decide) (by decide) (by decide) rfl rfl

theorem detrst : Statement (.detrst) :=
  of_fields _ 0x47 0 0 false rfl (by decide) (by decide) (by decide) rfl rfl

end Sys2Proof.Laws.EncodedRow
end

