-- ==== Sys2Proof/Laws/Sizes.lean ====
section
/-!
SUPPORT. The sizes and ranges of a good state (`regsValid`, R26 to R36) read as propositions, and that each operation
on the stores keeps them. This is the block's counterpart of a memory's canonical form.
-/

namespace Sys2Proof.Machine

/-- Every section of every channel has its two delay lines of capacity 2, and every channel its S sections. -/
def IirSized (k : Config) (iir : List (List IirSection)) : Prop :=
  ∀ row ∈ iir, row.length = k.iirSections ∧ row.all sectionSized = true

/-- `regsValid`, clause by clause. -/
theorem regsValid_iff (k : Config) (r : Regs) : regsValid k r = true ↔
    (1 ≤ r.nch ∧ r.nch ≤ k.nchMax ∧ r.deccnt < k.decim ∧ r.firh.capacity = k.firTaps) ∧
    (r.iir.length = r.nch ∧ IirSized k r.iir) ∧
    (r.enw.length = r.nch ∧ (∀ d ∈ r.enw, d.capacity = k.energyWindow) ∧ r.ensum.length = r.nch) ∧
    (r.mask.toNat < 2 ^ r.nch ∧ (numOps k.num).finite r.tf = true ∧
      (numOps k.num).gt r.tf (numOps k.num).zero = true ∧ r.hitch < r.nch) := by
  simp only [regsValid, IirSized, Bool.and_eq_true, decide_eq_true_eq, List.all_eq_true]
  tauto

/-- `State.wf` of an initialised state. -/
theorem wf_initd {s : State} (hw : s.wf = true) (hi : s.initd = true) :
    configValid s.cfg = true ∧ regsValid s.cfg s.toRegs = true := by
  simpa [State.wf, hi] using hw

/-- Setting an entry to a value that has the property of all entries keeps it for all. -/
theorem forall_mem_set {α : Type} {P : α → Prop} {l : List α} {c : Nat} {v : α} (h : ∀ x ∈ l, P x) (hv : P v) :
    ∀ x ∈ l.set c v, P x := by
  intro x hx
  rcases List.mem_or_eq_of_mem_set hx with h' | h'
  · exact h x h'
  · exact h' ▸ hv

/-- An entry read in range is an entry. -/
theorem getD_mem {α : Type} {l : List α} {c : Nat} {w : α} (h : c < l.length) : l.getD c w ∈ l := by
  rw [List.getD_eq_getElem?_getD, List.getElem?_eq_getElem h]
  exact List.getElem_mem h

theorem iirSized_set_cascade {k : Config} {s : State} {c : Nat} (x : NumVal) (h : IirSized k s.iir)
    (hc : c < s.iir.length) : IirSized k (s.iir.set c (cascade s.num (sosRow s c) (iirOf s c) x).2) := by
  have hrow := h _ (getD_mem (w := []) hc)
  exact forall_mem_set h ⟨(cascade_length _ _ _ _).trans hrow.1, cascade_sized _ _ _ _ hrow.2⟩

theorem iirSized_set_reset {k : Config} {s : State} {c : Nat} (h : IirSized k s.iir) (hc : c < s.iir.length) :
    IirSized k (s.iir.set c ((iirOf s c).map (sectionReset s.num.zero))) := by
  have hrow := h _ (getD_mem (w := []) hc)
  refine forall_mem_set h ⟨by simpa [iirOf] using hrow.1, ?_⟩
  simp only [List.all_map, List.all_eq_true] at hrow ⊢
  intro x hx
  simpa [sectionSized, sectionReset] using hrow.2 x hx

/-- `FIR.process` keeps the sizes. -/
theorem regsValid_firProcess (x : NumVal) (run : Bool) (s : State) (h : regsValid s.cfg s.toRegs = true) :
    regsValid s.cfg (firProcess x run s).2.toRegs = true := by
  rw [regsValid_iff] at h ⊢
  simpa [firProcess] using h

/-- `FIR.reset` keeps the sizes. -/
theorem regsValid_firReset (s : State) (h : regsValid s.cfg s.toRegs = true) :
    regsValid s.cfg (firReset s).toRegs = true := by
  rw [regsValid_iff] at h ⊢
  simpa [firReset] using h

/-- `IIR.process` of a channel in use keeps the sizes. -/
theorem regsValid_iirProcess (c : Nat) (x : NumVal) (s : State) (hc : c < s.nch)
    (h : regsValid s.cfg s.toRegs = true) : regsValid s.cfg (iirProcess c x s).2.toRegs = true := by
  rw [regsValid_iff] at h ⊢
  exact ⟨h.1, ⟨by simpa [iirProcess] using h.2.1.1, iirSized_set_cascade x h.2.1.2 (by omega)⟩, h.2.2.1, h.2.2.2⟩

/-- `IIR.reset` of a channel in use keeps the sizes. -/
theorem regsValid_iirReset (c : Nat) (s : State) (hc : c < s.nch) (h : regsValid s.cfg s.toRegs = true) :
    regsValid s.cfg (iirReset c s).toRegs = true := by
  rw [regsValid_iff] at h ⊢
  exact ⟨h.1, ⟨by simpa [iirReset] using h.2.1.1, iirSized_set_reset h.2.1.2 (by omega)⟩, h.2.2.1, h.2.2.2⟩

/-- `EN.update` of a channel in use keeps the sizes. -/
theorem regsValid_enUpdate (c : Nat) (x : NumVal) (s : State) (hc : c < s.nch)
    (h : regsValid s.cfg s.toRegs = true) : regsValid s.cfg (enUpdate c x s).2.toRegs = true := by
  rw [regsValid_iff] at h ⊢
  obtain ⟨h1, h2, ⟨h3, h4, h5⟩, h6⟩ := h
  refine ⟨h1, h2, ⟨by simpa [enUpdate] using h3, forall_mem_set h4 ?_, by simpa [enUpdate] using h5⟩, h6⟩
  simpa using (h4 (enwOf s c) (getD_mem (by omega)))

/-- `EN.reset` of a channel in use keeps the sizes. -/
theorem regsValid_enReset (c : Nat) (s : State) (hc : c < s.nch) (h : regsValid s.cfg s.toRegs = true) :
    regsValid s.cfg (enReset c s).toRegs = true := by
  rw [regsValid_iff] at h ⊢
  obtain ⟨h1, h2, ⟨h3, h4, h5⟩, h6⟩ := h
  refine ⟨h1, h2, ⟨by simpa [enReset] using h3, forall_mem_set h4 ?_, by simpa [enReset] using h5⟩, h6⟩
  simpa using (h4 (enwOf s c) (getD_mem (by omega)))

/-- A loop over the channels in use whose turns keep the parameters, the channel count and the sizes keeps them. -/
theorem regsValid_forChannels (body : Nat → State → State) (s : State)
    (hcfg : ∀ c t, (body c t).cfg = t.cfg) (hnch : ∀ c t, (body c t).nch = t.nch)
    (hb : ∀ c t, c < t.nch → regsValid t.cfg t.toRegs = true → regsValid t.cfg (body c t).toRegs = true)
    (h : regsValid s.cfg s.toRegs = true) :
    let t := forChannels s.nch body s
    t.cfg = s.cfg ∧ t.nch = s.nch ∧ regsValid s.cfg t.toRegs = true := by
  apply forChannels_keeps (P := fun t => t.cfg = s.cfg ∧ t.nch = s.nch ∧ regsValid s.cfg t.toRegs = true)
  · exact ⟨rfl, rfl, h⟩
  · intro c t hc ⟨h1, h2, h3⟩
    refine ⟨(hcfg c t).trans h1, (hnch c t).trans h2, ?_⟩
    have := hb c t (by omega) (by rw [h1]; exact h3)
    rwa [h1] at this

end Sys2Proof.Machine
end

