-- ==== Sys2Proof/Machine/Assembler.lean ====
section
/-!
DEFINITION. The host's notation: the textual form of commands and responses, written and read (R81), the pseudo-instructions (R82) and
the scaling of a raw sample (R226). The block knows nothing of these and no meaning uses them.
-/

namespace Sys2Proof.Machine

/-! ### The textual form (R81) -/

/-- One hexadecimal digit, upper case. -/
def hexDigit (d : Nat) : String := (("0123456789ABCDEF".toList).getD d '0').toString

/-- The 16 hexadecimal digits of a word, after `0x`. -/
def hexWord (w : Word) : String :=
  (List.range 16).foldl (fun acc k => acc ++ hexDigit (w.toNat / 16 ^ (15 - k) % 16)) "0x"

/-- A `Num` as `bits:0x` and 16 digits, the form of R81 that denotes every value. -/
def numText (w : Word) : String := "bits:" ++ hexWord w

/-- A `Flag`: `0` or `1`. -/
def flagText (b : Bool) : String := if b then "1" else "0"

/-- A `Vec`: its elements in square brackets, channel 0 first. -/
def vecText (ws : List Word) : String := "[" ++ ", ".intercalate (ws.map numText) ++ "]"

/-- The textual form of a command: the mnemonic, then the operands in R70's order. -/
def instrText : Instr → String
  | .init n => "INIT " ++ toString n
  | .reset => "RESET"
  | .adds x => "ADDS " ++ numText x
  | .firp x run => "FIRP " ++ numText x ++ ", " ++ flagText run
  | .firrst => "FIRRST"
  | .getfirc i => "GETFIRC " ++ toString i
  | .getfirn => "GETFIRN"
  | .iirp c x => "IIRP " ++ toString c ++ ", " ++ numText x
  | .iirrst c => "IIRRST " ++ toString c
  | .iirrsta => "IIRRSTA"
  | .getsosc c j => "GETSOSC " ++ toString c ++ ", " ++ toString j
  | .getsoss => "GETSOSS"
  | .getsosn => "GETSOSN"
  | .enupd c x => "ENUPD " ++ toString c ++ ", " ++ numText x
  | .geten c => "GETEN " ++ toString c
  | .getena => "GETENA"
  | .enrsta => "ENRSTA"
  | .setch m => "SETCH " ++ hexWord m
  | .settf f => "SETTF " ++ numText f
  | .ign g => "IGN " ++ flagText g
  | .chk ev => "CHK " ++ vecText ev
  | .gethit => "GETHIT"
  | .gethitch => "GETHITCH"
  | .clrhit => "CLRHIT"
  | .detrst => "DETRST"

/-- The name of a status (R191). -/
def statusName : Status → String
  | .ok => "OK"
  | .errIllegal => "ERR_ILLEGAL"
  | .errUninit => "ERR_UNINIT"
  | .errRange => "ERR_RANGE"
  | .errConfig => "ERR_CONFIG"

/-- The result an OK response shows for its command (R77, R81). -/
def resultText (i : Instr) (r : Response) : String :=
  match i with
  | .adds _ | .gethit => " b=" ++ flagText r.b
  | .getfirn | .getsoss | .getsosn | .gethitch => " ridx=" ++ toString r.ridx
  | .firp _ _ | .getfirc _ | .iirp _ _ | .getsosc _ _ | .enupd _ _ | .geten _ | .getena =>
    " " ++ vecText r.payload
  | .init _ | .reset | .firrst | .iirrst _ | .iirrsta | .enrsta | .setch _ | .settf _ | .ign _ | .chk _
  | .clrhit | .detrst => ""

/-- The textual form of the response to a command (R81). -/
def responseText (i : Instr) (r : Response) : String :=
  "-> " ++ statusName r.st ++ (if r.st = .ok then resultText i r else "")

/-! ### Reading the textual form (R81) -/

/-- The pieces of a text between the characters `sep`. -/
def splitAtChar (sep : Char) : List Char → List (List Char)
  | [] => [[]]
  | c :: rest =>
    if c = sep then [] :: splitAtChar sep rest
    else match splitAtChar sep rest with
      | [] => [[c]]
      | piece :: more => (c :: piece) :: more

/-- The text without the spaces at its two ends. -/
def trimSpaces (cs : List Char) : List Char :=
  ((cs.dropWhile (· = ' ')).reverse.dropWhile (· = ' ')).reverse

/-- The value of a digit below `base`. -/
def digitValue (base : Nat) (c : Char) : Option Nat :=
  let d := if c.isDigit then c.toNat - '0'.toNat
    else if 'A' ≤ c ∧ c ≤ 'F' then c.toNat - 'A'.toNat + 10
    else if 'a' ≤ c ∧ c ≤ 'f' then c.toNat - 'a'.toNat + 10
    else base
  if d < base then some d else none

/-- The natural that a non-empty row of digits denotes. -/
def parseDigits (base : Nat) (cs : List Char) : Option Nat :=
  if cs = [] then none
  else cs.foldl (fun acc c => acc.bind fun n => (digitValue base c).map fun d => n * base + d) (some 0)

/-- The word that `0x` and hexadecimal digits denote, where it fits. -/
def parseHexWord : List Char → Option Word
  | '0' :: 'x' :: ds => (parseDigits 16 ds).bind fun n => if n < 2 ^ 64 then some (BitVec.ofNat 64 n) else none
  | _ => none

/-- An unsigned decimal literal: digits, and perhaps a point and digits. -/
def parseUnsigned (cs : List Char) : Option Rat :=
  match splitAtChar '.' cs with
  | [whole] => (parseDigits 10 whole).map fun n => (n : Rat)
  | [whole, fraction] =>
    (parseDigits 10 whole).bind fun n =>
      (parseDigits 10 fraction).map fun f => mkRat (n * 10 ^ fraction.length + f : Nat) (10 ^ fraction.length)
  | _ => none

/-- A decimal literal with its optional sign. -/
def parseDecimal : List Char → Option Rat
  | '-' :: cs => (parseUnsigned cs).map fun q => -q
  | '+' :: cs => parseUnsigned cs
  | cs => parseUnsigned cs

/-- The word of a decimal literal: that of the `Num` nearest to it, in `NUM_EXACT` that of the rational itself. -/
def literalWord (k : Config) (q : Rat) : Word :=
  match k.num with
  | .binary64 => b64Enc (if q = 0 then .rat 0 else b64Round q)
  | .exact => exactEnc (.rat q)
  | .other => Config.otherLiteral q

/-- The word of a `Num` operand: `bits:0x` and 16 digits, or a decimal literal. -/
def parseNum (k : Config) (cs : List Char) : Option Word :=
  if cs.take 5 = "bits:".toList then
    (if cs.length = 23 then parseHexWord (cs.drop 5) else none)
  else (parseDecimal cs).map (literalWord k)

/-- A `Flag` operand. -/
def parseFlag (cs : List Char) : Option Bool :=
  if cs = ['0'] then some false else if cs = ['1'] then some true else none

/-- A `Vec` operand: its elements in square brackets. -/
def parseVec (k : Config) (cs : List Char) : Option (List Word) :=
  match cs with
  | '[' :: rest =>
    if rest.getLast? = some ']' then
      ((splitAtChar ',' rest.dropLast).map fun e => parseNum k (trimSpaces e)).foldr
        (fun e acc => e.bind fun w => acc.map fun ws => w :: ws) (some [])
    else none
  | _ => none

/-- The command of a mnemonic and its operands. -/
def parseOperands (k : Config) (mnemonic : String) (ops : List (List Char)) : Option Instr :=
  let nat := parseDigits 10
  match mnemonic, ops with
  | "INIT", [n] => (nat n).map .init
  | "RESET", [] => some .reset
  | "ADDS", [x] => (parseNum k x).map .adds
  | "FIRP", [x, run] => (parseNum k x).bind fun w => (parseFlag run).map fun r => .firp w r
  | "FIRRST", [] => some .firrst
  | "GETFIRC", [i] => (nat i).map .getfirc
  | "GETFIRN", [] => some .getfirn
  | "IIRP", [c, x] => (nat c).bind fun n => (parseNum k x).map fun w => .iirp n w
  | "IIRRST", [c] => (nat c).map .iirrst
  | "IIRRSTA", [] => some .iirrsta
  | "GETSOSC", [c, j] => (nat c).bind fun n => (nat j).map fun m => .getsosc n m
  | "GETSOSS", [] => some .getsoss
  | "GETSOSN", [] => some .getsosn
  | "ENUPD", [c, x] => (nat c).bind fun n => (parseNum k x).map fun w => .enupd n w
  | "GETEN", [c] => (nat c).map .geten
  | "GETENA", [] => some .getena
  | "ENRSTA", [] => some .enrsta
  | "SETCH", [m] => (parseHexWord m).map .setch
  | "SETTF", [f] => (parseNum k f).map .settf
  | "IGN", [g] => (parseFlag g).map .ign
  | "GETHIT", [] => some .gethit
  | "GETHITCH", [] => some .gethitch
  | "CLRHIT", [] => some .clrhit
  | "DETRST", [] => some .detrst
  | _, _ => none

/-- The command a line of text denotes, if it denotes one; what follows a `;` is a comment. -/
def parseLine (k : Config) (line : String) : Option Instr :=
  let text := trimSpaces (line.toList.takeWhile (· ≠ ';'))
  let mnemonic := String.ofList (text.takeWhile (· ≠ ' '))
  let rest := trimSpaces (text.dropWhile (· ≠ ' '))
  if mnemonic = "CHK" then (parseVec k rest).map .chk
  else parseOperands k mnemonic (if rest = [] then [] else (splitAtChar ',' rest).map trimSpaces)

/-! ### The pseudo-instructions (R82), each as its first commands and what follows their responses -/

/-- `GETFIRCA`: after `GETFIRN -> T`, one GETFIRC for each tap, ascending. -/
def getfircaRest (count : Response) : List Instr := (List.range count.ridx).map Instr.getfirc

/-- `GETSOSCA c`: after `GETSOSS -> S` and `GETSOSN -> 5`, one GETSOSC for each index, ascending. -/
def getsoscaRest (c : Nat) (sections perSection : Response) : List Instr :=
  (List.range (perSection.ridx * sections.ridx)).map (Instr.getsosc c)

/-- `CHKE`: after `GETENA -> ev`, a check of that vector. -/
def chkeRest (energies : Response) : Instr := .chk energies.payload

/-- The host's scaling of a raw sample, `r / HALF_SCALE - 1.0` (R226): one division, then one subtraction. -/
def hostScale (k : Config) (r : Nat) : NumVal :=
  match k.num with
  | .binary64 => b64Sub (b64Round ((r : Rat) / k.halfScale.toRat)) (.rat 1)
  | .exact => .rat ((r : Rat) / k.halfScale.toRat - 1)
  | .other => Config.otherScale r k.halfScale

/-- `ADDRAW r`: an ADDS of the scaled sample. -/
def addraw (k : Config) (r : Nat) : Instr := .adds ((numOps k.num).enc (hostScale k r))

/-- The four pseudo-instructions (R82). -/
inductive Pseudo where
  | getfirca
  | getsosca (c : Nat)
  | chke
  | addraw (r : Nat)
  deriving DecidableEq, Repr, Inhabited

/-- The host issues a command: its response, and the state after it. -/
def issue (i : Instr) (s : State) : Response × State :=
  match exec i s with
  | .next t => (t.resp.getD (errorResponse .errIllegal), t)
  | .fault _ => (errorResponse .errIllegal, s)
  | .refused _ => (errorResponse .errIllegal, s)

/-- The host issues commands one after the other: the payload words of their responses, and the state after them. -/
def issueAll : List Instr → State → List Word × State
  | [], s => ([], s)
  | i :: rest, s =>
    let r := issue i s
    let t := issueAll rest r.2
    (r.1.payload ++ t.1, t.2)

/-- A pseudo-instruction as the sequence of commands it stands for (R82): the list it results in, and the state after. -/
def runPseudo : Pseudo → State → List Word × State
  | .getfirca, s => let n := issue .getfirn s; issueAll (getfircaRest n.1) n.2
  | .getsosca c, s =>
    let n := issue .getsoss s
    let m := issue .getsosn n.2
    issueAll (getsoscaRest c n.1 m.1) m.2
  | .chke, s => let e := issue .getena s; issueAll [chkeRest e.1] e.2
  | .addraw r, s => issueAll [addraw s.cfg r] s

end Sys2Proof.Machine
end

