-- ==== Sys2Proof/Tests/Slice0.lean ====
section
/-!
SUPPORT. Tests. Expected values are those of spec/95_test_vectors.md (V<n>, its configurations CFG-A to CFG-C) or, for
the words, written out field by field from R72 and R78. The last part shows for each statement of the provers that its
hypotheses are met by something.
-/

namespace Sys2Proof.Tests

-- one theorem after the other: each one checked beside the others takes a thread and its stack
set_option Elab.async false

open Sys2Proof Sys2Proof.Machine

/-! ## Small states -/

/-- CFG-A; its `TF_RESET` is 4.0. -/
def cfgA : Config where
  num := .binary64
  nchMax := 2
  decim := 2
  firTaps := 3
  firCoef := [.rat (1 / 2), .rat (1 / 4), .rat (1 / 8)]
  iirSections := 1
  sosCoef := [[⟨.rat 1, .rat 0, .rat 0, .rat 0, .rat 0⟩], [⟨.rat (1 / 2), .rat (1 / 2), .rat 0, .rat (-1 / 2), .rat 0⟩]]
  energyWindow := 3
  tfReset := .rat 4
  halfScale := .rat 2048

/-- CFG-B, and the same for other counts: `n` pass-through channels. -/
def cfgB (n : Nat) : Config :=
  { cfgA with nchMax := n, sosCoef := List.replicate n [⟨.rat 1, .rat 0, .rat 0, .rat 0, .rat 0⟩] }

/-- The same parameters in `NUM_EXACT`. -/
def exactly (k : Config) : Config := { k with num := .exact }

/-- The state after HWRESET and a successful INIT `n`. -/
def fresh (k : Config) (n : Nat) : State :=
  { toRegs := initRegs k n, cfg := k, initd := true, port := [], resp := none, hwresets := 0 }

/-- The state before INIT. -/
def blank (k : Config) : State := { fresh k 1 with initd := false }

/-- CFG-A fresh, CFG-A fresh in exact arithmetic, CFG-B fresh. -/
def stA : State := fresh cfgA 2
def stX : State := fresh (exactly cfgA) 2
def stB : State := fresh (cfgB 10) 10

/-- The state an outcome goes on in; the test fails on any other outcome by way of `none`. -/
def after (r : Result) : Option State :=
  match r with
  | .next t => some t
  | .fault _ => none
  | .refused _ => none

/-- The words of the response to a command. -/
def answer (i : Instr) (s : State) : Option (List Word) := (after (exec i s)).bind fun t => t.resp.map Response.words

/-- The words of the response of one step with these words at the port. -/
def stepAnswer (s : State) (h : Word) (p : List Word) : Option (List Word) :=
  (after (step (placePort (.command h p) s))).bind fun t => t.resp.map Response.words

/-- `HIT` and `HITCH` after a check. -/
def hitAfter (ev : List Word) (s : State) : Option (Bool × Nat) := (after (exec (.chk ev) s)).map fun t => (t.hit, t.hitch)

/-- The word of a rational that binary64 represents. -/
def w64 (q : Rat) : Word := b64Enc (.rat q)

/-- A header from its fields in the order of R72, most significant first. -/
def hdr (rsv : BitVec 31) (f : BitVec 1) (idx : BitVec 16) (ch op : BitVec 8) : Word := rsv ++ f ++ idx ++ ch ++ op

/-! ## WellFormed: one ill-formed command for each check -/

theorem test_channelFits : (Instr.geten 255).wellFormed = true ∧ (Instr.geten 256).wellFormed = false ∧
    (Instr.iirp 256 0#64).wellFormed = false ∧ (Instr.enupd 256 0#64).wellFormed = false ∧
    (Instr.iirrst 256).wellFormed = false ∧ (Instr.getsosc 256 0).wellFormed = false := by decide

theorem test_indexFits : (Instr.init 65535).wellFormed = true ∧ (Instr.init 65536).wellFormed = false ∧
    (Instr.getfirc 65536).wellFormed = false ∧ (Instr.getsosc 0 65536).wellFormed = false := by decide

theorem test_vectorFits : (Instr.chk []).wellFormed = false ∧
    (Instr.chk (List.replicate 64 0#64)).wellFormed = true ∧
    (Instr.chk (List.replicate 65 0#64)).wellFormed = false := by decide

/-! ## Decode -/

/-- spec/opcode_table.json: mnemonic, match and mask of every row. -/
theorem test_opcode_table : opcodeTable.map (fun r => (r.mnemonic, r.matchWord, r.format.mask)) =
    [ ("INIT", 0x0000000000000001#64, 0xFFFFFFFF0000FFFF#64),
      ("RESET", 0x0000000000000002#64, 0xFFFFFFFFFFFFFFFF#64),
      ("ADDS", 0x0000000000000003#64, 0xFFFFFFFFFFFFFFFF#64),
      ("FIRP", 0x0000000000000010#64, 0xFFFFFFFEFFFFFFFF#64),
      ("FIRRST", 0x0000000000000011#64, 0xFFFFFFFFFFFFFFFF#64),
      ("GETFIRC", 0x0000000000000012#64, 0xFFFFFFFF0000FFFF#64),
      ("GETFIRN", 0x0000000000000013#64, 0xFFFFFFFFFFFFFFFF#64),
      ("IIRP", 0x0000000000000020#64, 0xFFFFFFFFFFFF00FF#64),
      ("IIRRST", 0x0000000000000021#64, 0xFFFFFFFFFFFF00FF#64),
      ("IIRRSTA", 0x0000000000000022#64, 0xFFFFFFFFFFFFFFFF#64),
      ("GETSOSC", 0x0000000000000023#64, 0xFFFFFFFF000000FF#64),
      ("GETSOSS", 0x0000000000000024#64, 0xFFFFFFFFFFFFFFFF#64),
      ("GETSOSN", 0x0000000000000025#64, 0xFFFFFFFFFFFFFFFF#64),
      ("ENUPD", 0x0000000000000030#64, 0xFFFFFFFFFFFF00FF#64),
      ("GETEN", 0x0000000000000031#64, 0xFFFFFFFFFFFF00FF#64),
      ("GETENA", 0x0000000000000032#64, 0xFFFFFFFFFFFFFFFF#64),
      ("ENRSTA", 0x0000000000000033#64, 0xFFFFFFFFFFFFFFFF#64),
      ("SETCH", 0x0000000000000040#64, 0xFFFFFFFFFFFFFFFF#64),
      ("SETTF", 0x0000000000000041#64, 0xFFFFFFFFFFFFFFFF#64),
      ("IGN", 0x0000000000000042#64, 0xFFFFFFFEFFFFFFFF#64),
      ("CHK", 0x0000000000000043#64, 0xFFFFFFFFFFFFFFFF#64),
      ("GETHIT", 0x0000000000000044#64, 0xFFFFFFFFFFFFFFFF#64),
      ("GETHITCH", 0x0000000000000045#64, 0xFFFFFFFFFFFFFFFF#64),
      ("CLRHIT", 0x0000000000000046#64, 0xFFFFFFFFFFFFFFFF#64),
      ("DETRST", 0x0000000000000047#64, 0xFFFFFFFFFFFFFFFF#64) ] := by decide +kernel

theorem test_decode_pipeline :
    (decode none (hdr 0 0 64 0 0x01) []).toOption = some (.init 64) ∧
    (decode none (hdr 0 0 0 0 0x02) []).toOption = some .reset ∧
    (decode none (hdr 0 0 0 0 0x03) [7#64]).toOption = some (.adds 7#64) := by decide +kernel

theorem test_decode_fir :
    (decode none (hdr 0 1 0 0 0x10) [7#64]).toOption = some (.firp 7#64 true) ∧
    (decode none (hdr 0 0 0 0 0x10) [7#64]).toOption = some (.firp 7#64 false) ∧
    (decode none (hdr 0 0 0 0 0x11) []).toOption = some .firrst ∧
    (decode none (hdr 0 0 0xABCD 0 0x12) []).toOption = some (.getfirc 0xABCD) ∧
    (decode none (hdr 0 0 0 0 0x13) []).toOption = some .getfirn := by decide +kernel

theorem test_decode_iir :
    (decode none (hdr 0 0 0 9 0x20) [7#64]).toOption = some (.iirp 9 7#64) ∧
    (decode none (hdr 0 0 0 9 0x21) []).toOption = some (.iirrst 9) ∧
    (decode none (hdr 0 0 0 0 0x22) []).toOption = some .iirrsta ∧
    (decode none (hdr 0 0 0x1234 9 0x23) []).toOption = some (.getsosc 9 0x1234) ∧
    (decode none (hdr 0 0 0 0 0x24) []).toOption = some .getsoss ∧
    (decode none (hdr 0 0 0 0 0x25) []).toOption = some .getsosn := by decide +kernel

theorem test_decode_energy :
    (decode none (hdr 0 0 0 9 0x30) [7#64]).toOption = some (.enupd 9 7#64) ∧
    (decode none (hdr 0 0 0 9 0x31) []).toOption = some (.geten 9) ∧
    (decode none (hdr 0 0 0 0 0x32) []).toOption = some .getena ∧
    (decode none (hdr 0 0 0 0 0x33) []).toOption = some .enrsta := by decide +kernel

theorem test_decode_detector :
    (decode none (hdr 0 0 0 0 0x40) [7#64]).toOption = some (.setch 7#64) ∧
    (decode none (hdr 0 0 0 0 0x41) [7#64]).toOption = some (.settf 7#64) ∧
    (decode none (hdr 0 1 0 0 0x42) []).toOption = some (.ign true) ∧
    (decode (some 2) (hdr 0 0 0 0 0x43) [7#64, 8#64]).toOption = some (.chk [7#64, 8#64]) ∧
    (decode none (hdr 0 0 0 0 0x44) []).toOption = some .gethit ∧
    (decode none (hdr 0 0 0 0 0x45) []).toOption = some .gethitch ∧
    (decode none (hdr 0 0 0 0 0x46) []).toOption = some .clrhit ∧
    (decode none (hdr 0 0 0 0 0x47) []).toOption = some .detrst := by decide +kernel

/-- V44: each is ERR_ILLEGAL, before and after INIT; the last two after INIT 2 only. -/
theorem test_illegal_encodings :
    (∀ x ∈ ([ (0x0000000000000000#64, []), (0x0000000000000004#64, []), (0x00000000000000FF#64, []),
        (0x0000000200000002#64, []), (0x0000000000000102#64, []), (0x0000000100000031#64, []),
        (0x0000000000010003#64, [0x3FF0000000000000#64]), (0x0000000000000003#64, []),
        (0x0000000000000002#64, [0#64]) ] : List (Word × List Word)),
      stepAnswer stA x.1 x.2 = some [1#64] ∧ stepAnswer (blank cfgA) x.1 x.2 = some [1#64]) ∧
    stepAnswer stA 0x43#64 [0#64] = some [1#64] ∧ stepAnswer stA 0x43#64 [0#64, 0#64, 0#64] = some [1#64] := by
  decide +kernel

/-- V45 and V46: the order of the checks. -/
theorem test_check_order :
    stepAnswer (blank cfgA) 0x44#64 [] = some [2#64] ∧ stepAnswer (blank cfgA) 0x931#64 [] = some [2#64] ∧
    stepAnswer (blank cfgA) 0x43#64 [0#64, 0#64, 0#64] = some [2#64] ∧
    stepAnswer stA 0x231#64 [] = some [3#64] ∧ stepAnswer stA 0x100000231#64 [] = some [1#64] := by decide +kernel

/-- R53: the bytes of INIT 10, least significant first; a string of seven bytes is no command. -/
theorem test_transport :
    (decodeBytes none [1#8, 0#8, 10#8, 0#8, 0#8, 0#8, 0#8, 0#8]).toOption = some (.init 10) ∧
    (decodeBytes none [1#8, 0#8, 10#8, 0#8, 0#8, 0#8, 0#8]).toOption = none := by decide +kernel

/-- The opcode table's numbering: one CHK payload word where the length is not defined; a field beyond `nbits` is 0. -/
theorem test_table_word :
    decodeTableWord 64 0x0000000000070223 = some (.getsosc 2 7) ∧ decodeTableWord 8 0x43 = some (.chk [0#64]) ∧
    decodeTableWord 128 0x3FF00000000000000000000000000003 = some (.adds 0x3FF0000000000000#64) ∧
    decodeTableWord 64 0 = none := by decide +kernel

/-- From reset the first instruction placed is the one that runs. -/
theorem test_fetch_word :
    (after (step (State.reset.withFetchWord 64 0x00000000000A0001))).map (fun t => (t.initd, t.nch, t.resp)) =
      some (true, 10, some (okResponse false 0 [])) ∧
    (after (step (State.reset.withFetchWord 8 0x44))).map (·.resp) = some (some (errorResponse .errUninit)) := by
  decide +kernel

/-! ## Numbers (R13 (a)) -/

/-- The tie of 1 + 2^-53 goes to the even 1, that of 1 + 3*2^-53 up; the least subnormal; the overflow threshold. -/
theorem test_rounding :
    b64Add (.rat 1) (.rat (1 / 2 ^ 53)) = .rat 1 ∧
    b64Enc (b64Add (.rat (1 + 1 / 2 ^ 52)) (.rat (1 / 2 ^ 53))) = 0x3FF0000000000002#64 ∧
    b64Enc (b64Round (1 / 2 ^ 1074)) = 1#64 ∧ b64Round (1 / 2 ^ 1075) = .rat 0 ∧
    b64Enc (b64Round (3 / 2 ^ 1075)) = 2#64 ∧ b64Round (-1 / 2 ^ 1075) = .negZero ∧
    b64Round ((2 ^ 54 - 1) * 2 ^ 970) = .inf false ∧
    b64Enc (b64Round ((2 ^ 54 - 2) * 2 ^ 970)) = 0x7FEFFFFFFFFFFFFF#64 := by decide +kernel

/-- Zeros, infinities and NaNs. -/
theorem test_special_values :
    b64Sub (.rat 5) (.rat 5) = .rat 0 ∧ b64Add .negZero .negZero = .negZero ∧
    b64Mul (.rat (-2)) (.rat 0) = .negZero ∧ (b64Sub (.inf false) (.inf false)).isFinite = false ∧
    b64Gt (b64Sub (.inf false) (.inf false)) (.rat 0) = false ∧ b64Mul (.inf true) (.rat (-2)) = .inf false ∧
    b64Le .negZero (.rat 0) = true ∧ b64Le (.rat 0) .negZero = true := by decide +kernel

/-! ## Parameters -/

/-- R8: HALF_SCALE is greater than zero; CFG-A is within the bounds, and a zero or negative one is not. -/
theorem test_halfScale_positive : configValid cfgA = true ∧ configValid (exactly cfgA) = true ∧
    configValid { cfgA with halfScale := .rat 0 } = false ∧ configValid { cfgA with halfScale := .negZero } = false ∧
    configValid { cfgA with halfScale := .rat (-2048) } = false ∧
    configValid { exactly cfgA with halfScale := .rat 0 } = false := by decide +kernel

/-! ## Delay line -/

/-- V10. -/
theorem test_delay_line :
    let d := (((DelayLine.create (.rat 0) 3).save (.rat 7)).save (.rat 8)).save (.rat 9)
    d.hist = [.rat 9, .rat 8, .rat 7] ∧ (d.save (.rat 10)).hist = [.rat 10, .rat 9, .rat 8] ∧
    (d.save (.rat 10)).read (.rat 0) 3 = .rat 0 ∧ (d.reset (.rat 0)).hist = [.rat 0, .rat 0, .rat 0] := by
  decide +kernel

/-! ## One command each -/

/-- V27 and V26's count. -/
theorem test_init : answer (.init 0) (blank cfgA) = some [4#64] ∧ answer (.init 3) (blank cfgA) = some [4#64] ∧
    (after (exec (.init 2) (blank cfgA))).map State.toRegs = some stA.toRegs ∧ answer (.init 2) stA = some [4#64] := by
  decide +kernel

/-- V26. -/
theorem test_reset :
    (after (exec .reset { stA with deccnt := 1, firh := ⟨[.rat 1, .rat 2, .rat 3]⟩, ensum := [.rat 7, .rat 8], hit := true })).map
      (fun t => (t.deccnt, t.firh, t.ensum, t.hit)) = some (0, stA.firh, stA.ensum, true) := by decide +kernel

/-- V23, rows 1 and 2. -/
theorem test_adds :
    answer (.adds (w64 1)) stA = some [0#64] ∧
    (after (exec (.adds 0#64) { stA with deccnt := 1, firh := ⟨[.rat 1, .rat 0, .rat 0]⟩ })).map
      (fun t => (t.deccnt, t.ensum, t.resp)) =
      some (0, [.rat (1 / 16), .rat (1 / 64)], some (okResponse true 0 [])) := by decide +kernel

/-- V14 and V15: the third sum rounds to ...34, which the opposite order would not. -/
theorem test_firp :
    answer (.firp (w64 4) true) { stA with firh := ⟨[.rat 3, .rat 2, .rat 1]⟩ } = some [0#64, w64 3] ∧
    answer (.firp (w64 1) true)
      { fresh { cfgA with firCoef := [b64Dec 0x3FB999999999999A#64, b64Dec 0x3FC999999999999A#64, b64Dec 0x3FD3333333333333#64] } 2
        with firh := ⟨[.rat 1, .rat 1, .rat 0]⟩ } = some [0#64, 0x3FE3333333333334#64] ∧
    answer (.firp (w64 1) false) stA = some [0#64, 0#64] := by decide +kernel

theorem test_firrst : (after (exec .firrst { stA with deccnt := 1, firh := ⟨[.rat 1, .rat 2, .rat 3]⟩ })).map
    (fun t => (t.deccnt, t.firh.hist)) = some (1, [.rat 0, .rat 0, .rat 0]) := by decide +kernel

/-- V16. -/
theorem test_getfirc : answer (.getfirc 2) stA = some [0#64, w64 (1 / 8)] ∧ answer (.getfirc 3) stA = some [3#64] := by
  decide +kernel

theorem test_getfirn : answer .getfirn stA = some [0x30000#64] := by decide +kernel

/-- V17, its second and fourth command. -/
theorem test_iirp :
    answer (.iirp 1 0#64) { stA with iir := stA.iir.set 1 [⟨⟨[.rat 1, .rat 0]⟩, ⟨[.rat (1 / 2), .rat 0]⟩⟩] } =
      some [0#64, w64 (3 / 4)] ∧
    (after (exec (.iirp 1 0#64) { stA with iir := stA.iir.set 1 [⟨⟨[.rat 0, .rat 0]⟩, ⟨[.rat (3 / 8), .rat (3 / 4)]⟩⟩] })).map
      (fun t => iirOf t 1) = some [⟨⟨[.rat 0, .rat 0]⟩, ⟨[.rat (3 / 16), .rat (3 / 8)]⟩⟩] := by decide +kernel

/-- V18. -/
theorem test_iirrst : (after (exec (.iirrst 1) { stA with
      iir := [[⟨⟨[.rat 1, .rat 2]⟩, ⟨[.rat 3, .rat 4]⟩⟩], [⟨⟨[.rat 1, .rat 2]⟩, ⟨[.rat 3, .rat 4]⟩⟩]] })).map (·.iir) =
      some [[⟨⟨[.rat 1, .rat 2]⟩, ⟨[.rat 3, .rat 4]⟩⟩], [⟨⟨[.rat 0, .rat 0]⟩, ⟨[.rat 0, .rat 0]⟩⟩]] ∧
    answer (.iirrst 2) stA = some [3#64] := by decide +kernel

theorem test_iirrsta : (after (exec .iirrsta { stA with
      iir := [[⟨⟨[.rat 1, .rat 2]⟩, ⟨[.rat 3, .rat 4]⟩⟩], [⟨⟨[.rat 1, .rat 2]⟩, ⟨[.rat 3, .rat 4]⟩⟩]] })).map (·.iir) =
      some stA.iir := by decide +kernel

/-- V19. -/
theorem test_getsosc : answer (.getsosc 1 0) stA = some [0#64, w64 (1 / 2)] ∧
    answer (.getsosc 1 3) stA = some [0#64, w64 (-1 / 2)] ∧ answer (.getsosc 1 5) stA = some [3#64] ∧
    answer (.getsosc 2 0) stA = some [3#64] := by decide +kernel

theorem test_getsoss_getsosn : answer .getsoss stA = some [0x10000#64] ∧ answer .getsosn stA = some [0x50000#64] := by
  decide +kernel

/-- V20, its sixth command, and V21's third sum. -/
theorem test_enupd :
    answer (.enupd 0 (w64 (-1))) { stA with enw := stA.enw.set 0 ⟨[.rat 0, .rat 4, .rat 4]⟩, ensum := [.rat 8, .rat 0] } =
      some [0#64, w64 5] ∧
    answer (.enupd 1 0x3FB999999999999A#64) { stA with ensum := [.rat 0, b64Dec 0x3F947AE147AE147C#64] } =
      some [0#64, 0x3F9EB851EB851EBA#64] := by decide +kernel

theorem test_geten : answer (.geten 1) { stA with ensum := [.rat 1, .rat 2] } = some [0#64, w64 2] ∧
    answer (.geten 2) stA = some [3#64] := by decide +kernel

theorem test_getena : answer .getena { stA with ensum := [.rat 1, .rat 2] } = some [0#64, w64 1, w64 2] := by
  decide +kernel

theorem test_enrsta : (after (exec .enrsta { stA with ensum := [.rat 1, .rat 2], enw := [⟨[.rat 1, .rat 0, .rat 0]⟩, ⟨[.rat 2, .rat 0, .rat 0]⟩] })).map
    (fun t => (t.ensum, t.enw)) = some (stA.ensum, stA.enw) := by decide +kernel

/-- V43. -/
theorem test_setch : answer (.setch 0x400#64) stB = some [4#64] ∧ answer (.setch 0x8000000000000000#64) stB = some [4#64] ∧
    (after (exec (.setch 0x3FB#64) stB)).map (·.mask) = some 0x3FB#64 ∧ answer (.setch 0#64) stB = some [0#64] := by
  decide +kernel

/-- V43. -/
theorem test_settf :
    [0#64, w64 (-1), 0x8000000000000000#64, 0x7FF0000000000000#64, 0x7FF8000000000000#64].map
      (fun f => answer (.settf f) stB) = List.replicate 5 (some [4#64]) ∧
    (after (exec (.settf (w64 (1 / 2))) stB)).map (·.tf) = some (.rat (1 / 2)) ∧ answer (.settf 1#64) stB = some [0#64] := by
  decide +kernel

theorem test_ign : (after (exec (.ign true) { stB with hit := true })).map (fun t => (t.ignore, t.hit)) = some (true, true) := by
  decide +kernel

/-- `EV8` of CFG-B. -/
def ev8 : List Word := [16, 11, 71, 12, 14, 18, 57, 10, 19, 13].map w64

/-- V28, V29 and V30; V31, V35 and V38 to V40: tie, strictness, lower median, maximum. -/
theorem test_chk_source :
    hitAfter ev8 { stB with mask := 0x3FB#64 } = some (true, 6) ∧ hitAfter ev8 stB = some (true, 2) ∧
    hitAfter ev8 { stB with mask := 0x3FB#64, tf := .rat 5 } = some (false, 0) := by decide +kernel

theorem test_chk_cases :
    hitAfter ([1, 9, 2, 9, 3].map w64) { fresh (cfgB 5) 5 with tf := .rat 2 } = some (true, 1) ∧
    hitAfter ([0, 0, 0, 7].map w64) (fresh (cfgB 4) 4) = some (true, 3) ∧
    hitAfter ([56, 14, 14, 14, 14].map w64) (fresh (cfgB 5) 5) = some (false, 0) ∧
    hitAfter ([3, 1, 2, 4].map w64) { fresh (cfgB 4) 4 with tf := .rat 1 } = some (true, 3) ∧
    hitAfter ([1, 100].map w64) { fresh (cfgB 2) 2 with tf := .rat 2 } = some (true, 1) := by decide +kernel

/-- V37. -/
theorem test_gethit_gethitch : answer .gethit { stB with hit := true } = some [0x100#64] ∧
    answer .gethitch { stB with hitch := 6 } = some [0x60000#64] := by decide +kernel

theorem test_clrhit : (after (exec .clrhit { stB with hit := true, hitch := 6 })).map (fun t => (t.hit, t.hitch)) =
    some (false, 6) := by decide +kernel

theorem test_detrst : (after (exec .detrst { stB with
    mask := 1#64, tf := .rat 9, ignore := true, hit := true, hitch := 6, deccnt := 1 })).map
    (fun t => (t.mask, t.tf, t.ignore, t.hit, t.hitch, t.deccnt)) = some (0x3FF#64, .rat 4, false, false, 0, 1) := by
  decide +kernel

/-! ## The host's notation -/

/-- R81 and V9: raw 3072 and raw 4095 with HALF_SCALE 2048. -/
theorem test_notation : instrText (.getsosc 2 7) = "GETSOSC 2, 7" ∧ hexWord 0x3FB#64 = "0x00000000000003FB" ∧
    addraw cfgA 3072 = .adds (w64 (1 / 2)) ∧ addraw cfgA 4095 = .adds 0x3FEFFC0000000000#64 := by decide +kernel

/-- R82: the coefficient lists of CFG-A, and Program 3's check of its own energies with factor 2. -/
theorem test_pseudo :
    (runPseudo .getfirca stA).1 = [w64 (1 / 2), w64 (1 / 4), w64 (1 / 8)] ∧
    (runPseudo (.getsosca 1) stA).1 = [w64 (1 / 2), w64 (1 / 2), 0#64, w64 (-1 / 2), 0#64] ∧
    (let t := (runPseudo .chke { stA with tf := .rat 2, ensum := [.rat (17 / 64), .rat (317 / 4096)] }).2
     t.hit = true ∧ t.hitch = 0) ∧
    (runPseudo (.addraw 3072) stA).2.firh.hist = [.rat (1 / 2), .rat 0, .rat 0] := by decide +kernel

/-- Lines of programs 1 to 5 of spec/95_test_vectors.md, and two that are no command. -/
theorem test_parse :
    parseLine cfgA "ADDS -0.5 ; 0x0000000000000003 0xBFE0000000000000" = some (.adds 0xBFE0000000000000#64) ∧
    parseLine cfgA "FIRP 1.0, 1" = some (.firp 0x3FF0000000000000#64 true) ∧
    parseLine cfgA "SETCH 0x3FB" = some (.setch 0x3FB#64) ∧
    parseLine cfgA "CHK [0.265625, 0.077392578125]" = some (.chk [0x3FD1000000000000#64, 0x3FB3D00000000000#64]) ∧
    parseLine cfgA "GETSOSC 1, 3" = some (.getsosc 1 3) ∧ parseLine cfgA "GETENA" = some .getena ∧
    parseLine cfgA "SETTF bits:0x8000000000000000" = some (.settf 0x8000000000000000#64) ∧
    parseLine cfgA "IIRP 0, 0.3" = some (.iirp 0 0x3FD3333333333333#64) ∧
    parseLine cfgA "; nothing" = none ∧ parseLine cfgA "GETEN" = none := by decide +kernel

theorem test_parse_printed : [Instr.init 10, .adds (w64 1), .firp (w64 2) false, .ign true, .chk [w64 1, w64 2], .setch 5#64].map
    (fun i => parseLine cfgA (instrText i)) =
    [Instr.init 10, .adds (w64 1), .firp (w64 2) false, .ign true, .chk [w64 1, w64 2], .setch 5#64].map some := by
  decide +kernel

/-! ## Witnesses: states and operands that meet the hypotheses of the statements, at the edges of their ranges -/

theorem witness_DecodeOfEncode :
    ((Instr.getsosc 255 65535).wellFormed = true ∧
      ∀ ev, Instr.getsosc 255 65535 = .chk ev → (none : Option Nat) = none ∨ none = some ev.length) ∧
    ((Instr.chk [0#64, 1#64]).wellFormed = true ∧
      ∀ ev, Instr.chk [0#64, 1#64] = .chk ev → some 2 = none ∨ some 2 = some ev.length) :=
  ⟨⟨by decide, nofun⟩, by decide, fun _ h => .inr (by rw [← Instr.chk.inj h]; rfl)⟩

theorem witness_EncodeOfDecode : decode (some 2) (hdr 0 0 0 0 0x43) [7#64, 8#64] = .ok (.chk [7#64, 8#64]) := rfl

theorem witness_OpcodeRowsDisjoint : ∃ r ∈ opcodeTable, (0x631#64 &&& r.format.mask) = r.matchWord := by decide +kernel

theorem witness_StepRunsDecoded :
    ((placePort (.command 0x131#64 []) stA).port = .command 0x131#64 [] :: [] ∧
      decode (vecLen (placePort (.command 0x131#64 []) stA)) 0x131#64 [] = .ok (.geten 1)) ∧
    decode (vecLen stA) (tableWord 8 0x43 0) (tablePayload (vecLen stA) 8 0x43) = .ok (.chk [0#64, 0#64]) :=
  ⟨⟨rfl, rfl⟩, rfl⟩

theorem witness_IllegalTransactionRefused :
    (placePort (.command 0x4#64 []) stA).port = .command 0x4#64 [] :: [] ∧
    decode (vecLen (placePort (.command 0x4#64 []) stA)) 0x4#64 [] = .error .unassignedOpcode := ⟨rfl, rfl⟩

theorem witness_HwResetEvent : (placePort .hwReset stA).port = .hwReset :: [] := rfl

theorem witness_IdleStepHolds : stA.port = [] := rfl

theorem witness_UninitialisedRefused : (blank cfgA).initd = false ∧ ∀ n, Instr.geten 255 ≠ .init n := ⟨rfl, nofun⟩

theorem witness_ErrorChangesNothing : ∃ t, exec (.geten 2) stA = .next t ∧
    t.resp = some (errorResponse .errRange) ∧ (errorResponse .errRange).st ≠ .ok := ⟨_, rfl, rfl, by decide⟩

theorem witness_ErrorChangesNothing_step :
    (placePort (.command 0x231#64 []) stA).port = .command 0x231#64 [] :: [] ∧
    ∃ t, step (placePort (.command 0x231#64 []) stA) = .next t ∧ t.resp = some (errorResponse .errRange) :=
  ⟨rfl, _, rfl, rfl⟩

theorem witness_StatusOwners :
    (∃ t, exec .reset (blank cfgA) = .next t ∧ t.resp = some (errorResponse .errUninit)) ∧
    (∃ t, exec (.geten 2) stA = .next t ∧ t.resp = some (errorResponse .errRange)) ∧
    (∃ t, exec (.init 2) stA = .next t ∧ t.resp = some (errorResponse .errConfig)) ∧
    ∃ t, exec (.chk []) stA = .next t ∧ t.resp = some (errorResponse .errIllegal) :=
  ⟨⟨_, rfl, rfl⟩, ⟨_, rfl, rfl⟩, ⟨_, rfl, rfl⟩, _, rfl, rfl⟩

theorem witness_UninitialisedUnobservable :
    (blank cfgA).initd = false ∧ ({ blank cfgA with nch := 7 } : State).initd = false ∧
    (∃ t, exec (.init 2) (blank cfgA) = .next t ∧ t.initd = true) ∧
    ∃ v, exec (.init 2) { blank cfgA with nch := 7 } = .next v := ⟨rfl, rfl, ⟨_, rfl, rfl⟩, _, rfl⟩

theorem witness_InitCommand : stA.initd = true ∧ (blank cfgA).initd = false ∧
    ((0 = 0 ∨ (blank cfgA).cfg.nchMax < 0) ∧ (3 = 0 ∨ (blank cfgA).cfg.nchMax < 3)) ∧
    (1 ≤ 1 ∧ 1 ≤ (blank cfgA).cfg.nchMax) ∧ 1 ≤ 2 ∧ 2 ≤ (blank cfgA).cfg.nchMax := by decide +kernel

/-- A good initialised state, and one before INIT: for ResetCommand, FirpCommand, FirResetAndAccessors, IirpCommand,
IirResetCommands, IirAccessors, EnupdCommand, EnergyReads, EnrstaCommand, SetchCommand, SettfCommand,
DetectorRegisterCommands, ChkWithoutDecision and DecimationDropsNoInput. -/
theorem witness_good_state : stA.initd = true ∧ stA.wf = true ∧ stX.wf = true ∧ stB.wf = true ∧
    (blank cfgA).initd = false := by decide +kernel

theorem witness_ResetsMatchInit : stA.initd = true ∧ stA.wf = true ∧ (blank cfgA).initd = false ∧
    (blank cfgA).cfg = stA.cfg ∧ (after (exec (.init stA.nch) (blank cfgA))).isSome = true ∧
    (after (exec .reset stA)).isSome = true ∧ (after (exec .detrst stA)).isSome = true ∧
    [Instr.adds 0#64, .getena].all filterCommand = true ∧ [Instr.gethit, .chk [0#64, 0#64]].all detectorCommand = true := by
  decide +kernel

theorem witness_AddsHoldingTick : stA.initd = true ∧ stA.deccnt + 1 ≠ stA.cfg.decim := by decide +kernel

/-- CFG-A with one sample taken: the next one decimates. -/
def stTick : State := { stA with deccnt := 1, firh := ⟨[.rat 1, .rat 0, .rat 0]⟩ }

theorem witness_AddsDecimatingTick : stTick.initd = true ∧ stTick.wf = true ∧ stTick.deccnt + 1 = stTick.cfg.decim := by
  decide +kernel

theorem witness_AddsCountsDecimations : stA.initd = true ∧ stA.wf = true ∧ stA.deccnt = 0 := by decide +kernel

theorem witness_AddsEqualsComponents : stTick.initd = true ∧ stTick.wf = true ∧
    (after (exec (.adds 0#64) stTick)).isSome = true ∧
    (let y := (firProcess (stTick.num.dec 0#64) (decide (stTick.deccnt + 1 = stTick.cfg.decim)) stTick).1
     let z := fun c => (cascade stTick.num (sosRow stTick c) (iirOf stTick c) y).1
     y = .rat (1 / 4) ∧ stTick.num.dec (stTick.num.enc y) = y ∧
     ∀ c < stTick.nch, stTick.num.dec (stTick.num.enc (z c)) = z c) := by decide +kernel

theorem witness_FirResetAndAccessors : stA.initd = true ∧ 2 < stA.cfg.firTaps ∧ stA.cfg.firTaps ≤ 3 := by decide +kernel

/-- For FirImpulseResponse and FirStepResponse. -/
theorem witness_FirResponses : stX.cfg.num = .exact ∧ configValid stX.cfg = true ∧
    stX.firh = ⟨List.replicate stX.cfg.firTaps (.rat 0)⟩ ∧ (2 ≤ 3 ∧ 2 < stX.cfg.firTaps) ∧ (3 ≤ 3 ∧ ¬ 3 < stX.cfg.firTaps) ∧
    (2 < 4 ∧ 3 < 4) := by decide +kernel

/-- Capacity 2 and one save: age 0 is the save, age 1 what was there, age 2 is beyond. -/
theorem witness_DelayLineHistory :
    let d : DelayLine := ⟨[.rat 5, .rat 6]⟩
    let vs : List NumVal := [.rat 7]
    (0 < d.capacity ∧ 0 < vs.length) ∧ (1 < d.capacity ∧ vs.length ≤ 1) ∧ d.capacity ≤ 2 := by decide +kernel

/-- A channel and an index at both edges: for IirpCommand, IirResetCommands, IirAccessors, EnupdCommand, EnergyReads and
IirChannelsIndependent. -/
theorem witness_channels : (1 < stA.nch ∧ stA.nch ≤ 2) ∧ (0 < stA.cfg.iirSections) ∧
    (stA.nch ≤ 2 ∨ 5 * stA.cfg.iirSections ≤ 0) ∧ (stA.nch ≤ 0 ∨ 5 * stA.cfg.iirSections ≤ 5) ∧ (0 : Nat) ≠ 1 := by
  decide +kernel

theorem witness_IirZeroStream : stX.cfg.num = .exact ∧ stX.wf = true ∧ stX.initd = true ∧ 1 < stX.nch ∧
    iirOf stX 1 = List.replicate stX.cfg.iirSections (zeroSection (.rat 0)) := by decide +kernel

/-- For EnergyIsWindowSumKept and both parts of EnergyNotNegative. -/
theorem witness_EnergyIsWindowSumKept :
    let s := placePort (.command 0x130#64 [w64 2]) stX
    s.cfg.num = .exact ∧ s.wf = true ∧ (∀ c < s.nch, (ensumOf s c).toRat = windowSum (enwOf s c)) ∧
    (∀ c < s.nch, ∀ v ∈ (enwOf s c).hist, 0 ≤ v.toRat) ∧ (after (step s)).map (·.initd) = some true := by decide +kernel

theorem witness_EnergyOfConstantInput : stX.cfg.num = .exact ∧ stX.wf = true ∧ stX.initd = true ∧ 1 < stX.nch ∧
    enwOf stX 1 = ⟨List.replicate stX.cfg.energyWindow (.rat 0)⟩ ∧ ensumOf stX 1 = .rat 0 ∧ 2 < 4 ∧ 3 < 4 := by
  decide +kernel

/-- The value 0.1 of V21, whose square rounds. -/
theorem witness_EnergySaturatesInBinary64 : stA.cfg.num = .binary64 ∧ stA.wf = true ∧ stA.initd = true ∧ 1 < stA.nch ∧
    enwOf stA 1 = ⟨List.replicate stA.cfg.energyWindow (.rat 0)⟩ ∧ ensumOf stA 1 = .rat 0 ∧
    (b64Mul (b64Dec 0x3FB999999999999A#64) (b64Dec 0x3FB999999999999A#64)).isFinite = true ∧
    stA.cfg.energyWindow ≤ 3 ∧ 3 < 5 := by decide +kernel

theorem witness_EnergyStableBetweenTicks : stA.initd = true ∧ (∃ t, exec (.adds 0#64) stA = .next t ∧
      ∃ r, t.resp = some r ∧ r.b = false) ∧ (∀ c x, Instr.adds 0#64 ≠ .enupd c x) ∧ Instr.adds 0#64 ≠ .enrsta ∧
    Instr.adds 0#64 ≠ .reset := ⟨rfl, ⟨_, rfl, _, rfl, rfl⟩, nofun, nofun, nofun⟩

theorem witness_RoundsToNearestEven : b64Magnitude (1 / 10) < b64InfMagnitude ∧ 1 < b64InfMagnitude := by decide +kernel

theorem witness_SetchCommand : stB.initd = true ∧ (∀ c, stB.nch ≤ c → c < 64 → (0x3FF#64).getLsbD c = false) ∧
    (stB.nch ≤ 10 ∧ 10 < 64 ∧ (0x400#64).getLsbD 10 = true) ∧
    (stB.nch ≤ 63 ∧ 63 < 64 ∧ (0x8000000000000000#64).getLsbD 63 = true) := by decide +kernel

theorem witness_SettfCommand : stB.initd = true ∧
    (stB.num.finite (stB.num.dec 1#64) = true ∧ stB.num.gt (stB.num.dec 1#64) stB.num.zero = true) ∧
    stB.num.gt (stB.num.dec 0#64) stB.num.zero = false ∧ stB.num.finite (stB.num.dec 0x7FF0000000000000#64) = false := by
  decide +kernel

theorem witness_ChkWithoutDecision : stB.initd = true ∧ ev8.length = stB.nch ∧
    ({ stB with hit := true } : State).hit = true ∧ ({ stB with ignore := true } : State).ignore = true ∧
    (ev8.drop 1).length ≠ stB.nch ∧ (0#64 :: ev8).length ≠ stB.nch := by decide +kernel

/-- With threshold 70 none is above, with 56 one is. -/
theorem witness_ChkLatchesGreatest : stB.cfg.num ≠ .other ∧ stB.initd = true ∧ ev8.length = stB.nch ∧
    stB.hit = false ∧ stB.ignore = false ∧ (∀ v ∈ ev8.map stB.num.dec, stB.num.finite v = true) ∧
    stB.num.mul (median stB.num (ev8.map stB.num.dec)) stB.tf = .rat 56 ∧
    stB.num.mul (median stB.num (ev8.map stB.num.dec)) (.rat 5) = .rat 70 ∧
    stB.num.finite (.rat 56) = true ∧ stB.num.finite (.rat 70) = true := by decide +kernel

theorem witness_MedianIsLowerMiddle : NumInst.binary64 ≠ .other ∧
    ∀ v ∈ ev8.map b64Dec, (numOps .binary64).finite v = true := by decide +kernel

/-- A NaN among the energies, and an infinite threshold from finite ones. -/
theorem witness_ChkUnspecifiedStaysInBounds :
    (let ws := [0x7FF8000000000000#64, w64 1]
     ws.length = stA.nch ∧ stA.hit = false ∧ stA.ignore = false ∧
     decisionSpecified stA.num stA.tf (ws.map stA.num.dec) = false) ∧
    decisionSpecified stA.num stA.tf ([0x7FEFFFFFFFFFFFFF#64, 0x7FEFFFFFFFFFFFFF#64].map stA.num.dec) = false := by
  decide +kernel

theorem witness_HitStateMachine :
    (stB.hit = false ∧ hitAfter ev8 stB = some (true, 2)) ∧
    (({ stB with hit := true } : State).hit = true ∧ (after (exec .clrhit { stB with hit := true })).map (·.hit) = some false) ∧
    hitAfter ev8 { stB with hit := true, hitch := 6 } = some (true, 6) := by decide +kernel

theorem witness_SourceDetectorExample : stB.cfg.num ≠ .other ∧ stB.initd = true ∧ stB.nch = 10 ∧ stB.hit = false ∧
    stB.ignore = false ∧ stB.mask = 0x3FF#64 ∧ stB.tf = .rat 4 := by decide +kernel

theorem witness_EmptyMaskNeverHits : ({ stB with mask := 0#64 } : State).initd = true ∧
    ev8.length = ({ stB with mask := 0#64 } : State).nch ∧ ({ stB with mask := 0#64 } : State).mask = 0#64 := by
  decide +kernel

/-- Three channels in exact arithmetic: V32 (factor 1), and V34 (factor 0.5, channel 0 disabled). -/
theorem witness_FlatVectorDecision :
    let s : State := { fresh (exactly (cfgB 3)) 3 with mask := 6#64, tf := .rat (1 / 2) }
    let ws := List.replicate 3 (w64 5)
    s.cfg.num = .exact ∧ s.initd = true ∧ ws.length = s.nch ∧ ws ≠ [] ∧ s.hit = false ∧ s.ignore = false ∧
    ws.map s.num.dec = List.replicate 3 (.rat 5) ∧ (s.tf.toRat < 1 ∧ (0 : Rat) < 5 ∧ s.mask.getLsbD 1 = true ∧
      ∀ c < 1, s.mask.getLsbD c = false) ∧
    (1 ≤ ({ s with tf := .rat 1 } : State).tf.toRat ∧ (0 : Rat) ≤ 5) := by decide +kernel

theorem witness_GoodStateKept : (placePort (.command 0x130#64 [w64 2]) stA).wf = true ∧
    (after (step (placePort (.command 0x130#64 [w64 2]) stA))).isSome = true := by decide +kernel

theorem witness_WriteSets : (∃ t, exec (.iirp 0 (w64 1)) stA = .next t) ∧ (∃ t, exec (.enupd 0 (w64 1)) stA = .next t) ∧
    (after (exec (.adds 0#64) stTick)).map (fun t => decide (t.iir ≠ stTick.iir ∧ t.enw ≠ stTick.enw ∧ t.deccnt ≠ stTick.deccnt)) =
      some true := ⟨⟨_, rfl⟩, ⟨_, rfl⟩, by decide +kernel⟩

theorem witness_ReadsHaveNoSideEffect : readOnlyCommand .getena = true ∧ ∃ t, exec .getena stA = .next t := ⟨rfl, _, rfl⟩

end Sys2Proof.Tests
end

namespace Sys2Proof

/-! ## Rounding to binary64 (R13 (a))

A magnitude `m` is a whole number `b64Units m` of the least subnormal `2^-1074`. In these units the rounding of `n / d`
is a statement about naturals: the exact value lies between two neighbouring magnitudes `lo` and `lo + 1`, every other
magnitude lies outside of them because `b64Units` increases strictly, and `divNearestEven` chooses between the two. -/

/-! ### Magnitudes as multiples of the least subnormal -/

/-- The value of a finite magnitude, counted in the least subnormal `2^-1074`. -/
def b64Units (m : Nat) : Nat := b64Significand m * 2 ^ b64Scale m

theorem b64Value_eq_units (m : Nat) : b64Value m = (b64Units m : Rat) / 2 ^ 1074 := by
  unfold b64Value b64Units
  generalize b64Significand m = sig
  generalize b64Scale m = e
  generalize 1074 = k
  split
  case isTrue h =>
    obtain ⟨j, rfl⟩ := Nat.exists_eq_add_of_le h
    rw [Rat.mkRat_eq_div, Nat.add_sub_cancel_left]
    push_cast
    field_simp
    ring
  case isFalse h =>
    obtain ⟨j, rfl⟩ := Nat.exists_eq_add_of_le (Nat.le_of_not_le h)
    rw [Rat.mkRat_eq_div, Nat.add_sub_cancel_left]
    push_cast
    field_simp
    ring

theorem b64Units_subnormal {f : Nat} (hf : f < 2 ^ 52) : b64Units f = f := by
  have hexp : b64Exponent f = 0 := Nat.div_eq_of_lt hf
  simp only [b64Units, b64Significand, b64Scale, hexp, Nat.mod_eq_of_lt hf, if_true, Nat.zero_sub, Nat.pow_zero,
    Nat.mul_one]

theorem b64Units_normal (e : Nat) {f : Nat} (hf : f < 2 ^ 52) :
    b64Units ((e + 1) * 2 ^ 52 + f) = (2 ^ 52 + f) * 2 ^ e := by
  have hexp : b64Exponent ((e + 1) * 2 ^ 52 + f) = e + 1 := by unfold b64Exponent; omega
  have hfrac : ((e + 1) * 2 ^ 52 + f) % 2 ^ 52 = f := by omega
  simp only [b64Units, b64Significand, b64Scale, hexp, hfrac, Nat.add_sub_cancel, if_neg (Nat.succ_ne_zero e)]

/-- A significand at a scale, as `b64RoundMagnitude` writes it; a significand of `2^53` carries into the exponent. -/
theorem b64Units_scale_significand {e sig : Nat} (hnorm : e = 0 ∨ 2 ^ 52 ≤ sig) (hsig : sig ≤ 2 ^ 53) :
    b64Units (e * 2 ^ 52 + sig) = sig * 2 ^ e := by
  rcases Nat.lt_or_ge sig (2 ^ 52) with hsub | hnormal
  · obtain rfl : e = 0 := by omega
    simpa using b64Units_subnormal hsub
  obtain ⟨f, rfl⟩ := Nat.exists_eq_add_of_le hnormal
  rcases Nat.lt_or_ge f (2 ^ 52) with hf | hf
  · rw [← b64Units_normal e hf]
    exact congrArg b64Units (by ring)
  · obtain rfl : f = 2 ^ 52 := by omega
    calc b64Units (e * 2 ^ 52 + (2 ^ 52 + 2 ^ 52)) = b64Units ((e + 1 + 1) * 2 ^ 52 + 0) := congrArg b64Units (by ring)
      _ = (2 ^ 52 + 0) * 2 ^ (e + 1) := b64Units_normal (e + 1) (by decide)
      _ = (2 ^ 52 + 2 ^ 52) * 2 ^ e := by ring

/-- Every magnitude is a significand at a scale with room to add one unit in the last place. -/
theorem exists_scale_significand (m : Nat) :
    ∃ e sig, m = e * 2 ^ 52 + sig ∧ (e = 0 ∨ 2 ^ 52 ≤ sig) ∧ sig < 2 ^ 53 := by
  refine ⟨b64Scale m, m - b64Scale m * 2 ^ 52, ?_⟩
  unfold b64Scale b64Exponent
  omega

theorem b64Units_strictMono : StrictMono b64Units := by
  refine strictMono_nat_of_lt_succ fun m => ?_
  obtain ⟨e, sig, rfl, hnorm, hsig⟩ := exists_scale_significand m
  rw [Nat.add_assoc, b64Units_scale_significand hnorm hsig.le,
    b64Units_scale_significand (hnorm.imp_right fun h => by omega) hsig]
  exact Nat.mul_lt_mul_of_pos_right (Nat.lt_succ_self sig) (Nat.two_pow_pos e)

/-! ### The binade of a quotient -/

theorem lt_two_pow_b64Log_succ (n : Nat) {d : Nat} (hd : 0 < d) :
    n * 2 ^ 1074 < d * 2 ^ (b64Log n d + 1) := by
  unfold b64Log
  generalize n * 2 ^ 1074 = N
  dsimp only
  split
  case isTrue h => exact h.trans_le (Nat.mul_le_mul_left d (Nat.pow_le_pow_right two_pos (by omega)))
  case isFalse =>
    calc N < 2 ^ (N.log2 + 1) := Nat.lt_log2_self
      _ ≤ 2 ^ (d.log2 + (N.log2 - d.log2 + 1)) := Nat.pow_le_pow_right two_pos (by omega)
      _ = 2 ^ d.log2 * 2 ^ (N.log2 - d.log2 + 1) := Nat.pow_add ..
      _ ≤ d * 2 ^ (N.log2 - d.log2 + 1) := Nat.mul_le_mul_right _ (Nat.log2_self_le hd.ne')

theorem two_pow_b64Log_le {n d : Nat} (hlog : b64Log n d ≠ 0) : d * 2 ^ b64Log n d ≤ n * 2 ^ 1074 := by
  revert hlog
  unfold b64Log
  generalize n * 2 ^ 1074 = N
  dsimp only
  split
  case isFalse h => exact fun _ => Nat.le_of_not_lt h
  case isTrue =>
    intro hlog
    have hN : N ≠ 0 := by rintro rfl; simp at hlog
    obtain ⟨j, hj⟩ : ∃ j, N.log2 = d.log2 + 1 + j := Nat.exists_eq_add_of_le (by omega)
    have hexp : N.log2 - d.log2 - 1 = j := by omega
    rw [hexp]
    calc d * 2 ^ j ≤ 2 ^ (d.log2 + 1) * 2 ^ j := Nat.mul_le_mul_right _ Nat.lt_log2_self.le
      _ = 2 ^ N.log2 := by rw [hj, Nat.pow_add _ _ j]
      _ ≤ N := Nat.log2_self_le hN

/-- The significand before rounding has at most 53 bits. -/
theorem b64Significand_floor_lt (n : Nat) {d : Nat} (hd : 0 < d) :
    n * 2 ^ 1074 / (d * 2 ^ b64RoundScale n d) < 2 ^ 53 := by
  rw [Nat.div_lt_iff_lt_mul (Nat.mul_pos hd (Nat.two_pow_pos _))]
  calc n * 2 ^ 1074 < d * 2 ^ (b64Log n d + 1) := lt_two_pow_b64Log_succ n hd
    _ ≤ d * 2 ^ (53 + b64RoundScale n d) :=
      Nat.mul_le_mul_left d (Nat.pow_le_pow_right two_pos (by unfold b64RoundScale; omega))
    _ = 2 ^ 53 * (d * 2 ^ b64RoundScale n d) := by rw [Nat.pow_add]; ring

/-- Above scale 0 the significand before rounding has its hidden bit. -/
theorem b64Significand_floor_normal (n : Nat) {d : Nat} (hd : 0 < d) :
    b64RoundScale n d = 0 ∨ 2 ^ 52 ≤ n * 2 ^ 1074 / (d * 2 ^ b64RoundScale n d) := by
  refine or_iff_not_imp_left.mpr fun hscale => ?_
  have hlog : b64Log n d = 52 + b64RoundScale n d := by unfold b64RoundScale at hscale ⊢; omega
  rw [Nat.le_div_iff_mul_le (Nat.mul_pos hd (Nat.two_pow_pos _))]
  calc 2 ^ 52 * (d * 2 ^ b64RoundScale n d) = d * 2 ^ b64Log n d := by rw [hlog, Nat.pow_add]; ring
    _ ≤ n * 2 ^ 1074 := two_pow_b64Log_le (by omega)

/-! ### The choice between the two neighbours -/

/-- Which neighbour `divNearestEven` takes: the floor or one more, the nearer one, and the even one on a tie. -/
theorem divNearestEven_cases (n d : Nat) :
    (divNearestEven n d = n / d ∧ 2 * (n % d) ≤ d ∧ (2 * (n % d) = d → n / d % 2 = 0)) ∨
    (divNearestEven n d = n / d + 1 ∧ d ≤ 2 * (n % d) ∧ (2 * (n % d) = d → (n / d + 1) % 2 = 0)) := by
  unfold divNearestEven
  dsimp only
  split_ifs <;> omega

/-- The formula of `b64RoundMagnitude` also holds for 0, to which the definition gives a case of its own. -/
theorem b64RoundMagnitude_eq (n d : Nat) : b64RoundMagnitude n d =
    b64RoundScale n d * 2 ^ 52 + divNearestEven (n * 2 ^ 1074) (d * 2 ^ b64RoundScale n d) := by
  unfold b64RoundMagnitude
  split
  case isTrue h =>
    subst h
    have hscale : b64RoundScale 0 d = 0 := by simp only [b64RoundScale, b64Log, Nat.zero_mul]; simp
    rw [hscale, Nat.zero_mul, Nat.zero_mul]
    simp [divNearestEven]
  case isFalse => rfl

/-- How far `m` is from `n / d`, counted in `2^-1074 / d`. -/
def b64Error (m n d : Nat) : Nat := ((b64Units m * d : Nat) - (n * 2 ^ 1074 : Nat) : Int).natAbs

/-- A numerator `N` lies between two neighbouring magnitudes, one unit in the last place apart. -/
theorem b64Units_bracket {N d e : Nat} (hnorm : e = 0 ∨ 2 ^ 52 ≤ N / (d * 2 ^ e)) (hlt : N / (d * 2 ^ e) < 2 ^ 53) :
    b64Units (e * 2 ^ 52 + N / (d * 2 ^ e)) * d + N % (d * 2 ^ e) = N ∧
    b64Units (e * 2 ^ 52 + N / (d * 2 ^ e) + 1) * d =
      b64Units (e * 2 ^ 52 + N / (d * 2 ^ e)) * d + d * 2 ^ e := by
  have hsucc : e = 0 ∨ 2 ^ 52 ≤ N / (d * 2 ^ e) + 1 := hnorm.imp_right fun h => by omega
  rw [Nat.add_assoc, b64Units_scale_significand hnorm hlt.le, b64Units_scale_significand hsucc hlt]
  constructor
  · calc N / (d * 2 ^ e) * 2 ^ e * d + N % (d * 2 ^ e) = d * 2 ^ e * (N / (d * 2 ^ e)) + N % (d * 2 ^ e) := by ring
      _ = N := Nat.div_add_mod ..
  · ring

/-- No magnitude `m` is nearer to `n / d` than the one `b64RoundMagnitude` chooses, and a tie is broken to even. -/
theorem b64RoundMagnitude_nearest (n m : Nat) {d : Nat} (hd : 0 < d) :
    b64Error (b64RoundMagnitude n d) n d ≤ b64Error m n d ∧
    (b64Error (b64RoundMagnitude n d) n d = b64Error m n d → m ≠ b64RoundMagnitude n d →
      b64RoundMagnitude n d % 2 = 0) := by
  obtain ⟨hfloor, hgap⟩ := b64Units_bracket (b64Significand_floor_normal n hd) (b64Significand_floor_lt n hd)
  have hround := divNearestEven_cases (n * 2 ^ 1074) (d * 2 ^ b64RoundScale n d)
  have hmono : StrictMono fun k => b64Units k * d := b64Units_strictMono.mul_const hd
  rw [b64RoundMagnitude_eq n d]
  have hmod : n * 2 ^ 1074 % (d * 2 ^ b64RoundScale n d) < d * 2 ^ b64RoundScale n d :=
    Nat.mod_lt _ (Nat.mul_pos hd (Nat.two_pow_pos _))
  unfold b64Error
  generalize n * 2 ^ 1074 = N at *
  generalize b64RoundScale n d = e at *
  generalize d * 2 ^ e = gap at *
  obtain ⟨lo, hlo⟩ : ∃ lo, e * 2 ^ 52 + N / gap = lo := ⟨_, rfl⟩
  rw [hlo] at hfloor hgap
  have hbelow : m < lo → b64Units m * d < b64Units lo * d := fun h => hmono h
  have habove : lo + 1 < m → b64Units (lo + 1) * d < b64Units m * d := fun h => hmono h
  have hm : m < lo ∨ m = lo ∨ m = lo + 1 ∨ lo + 1 < m := by omega
  rcases hround with ⟨hsig, hnear, htie⟩ | ⟨hsig, hnear, htie⟩
  · rw [hsig, hlo]
    rcases hm with h | rfl | rfl | h <;> omega
  · rw [hsig, ← Nat.add_assoc, hlo]
    rcases hm with h | rfl | rfl | h <;> omega

/-! ### Rationals -/

/-- The error in units of `2^-1074 / q.den` is the distance of the values. -/
theorem abs_b64Value_sub (q : Rat) (m : Nat) :
    abs (b64Value m - abs q) = (b64Error m q.num.natAbs q.den : Rat) / (2 ^ 1074 * q.den) := by
  have habs : abs q = (q.num.natAbs : Rat) / q.den := by
    rw [Nat.cast_natAbs, Int.cast_abs, ← Nat.abs_cast q.den, ← abs_div, Rat.num_div_den]
  rw [habs, b64Value_eq_units]
  unfold b64Error
  generalize q.num.natAbs = n
  generalize 1074 = k
  have hden : (q.den : Rat) ≠ 0 := Nat.cast_ne_zero.mpr q.den_ne_zero
  have hpos : (0 : Rat) < 2 ^ k * q.den := by positivity
  have hdiff : (b64Units m : Rat) / 2 ^ k - n / q.den =
      (((b64Units m * q.den : Nat) - (n * 2 ^ k : Nat) : Int) : Rat) / (2 ^ k * q.den) := by
    push_cast
    field_simp
  rw [hdiff, abs_div, abs_of_pos hpos, Nat.cast_natAbs, Int.cast_abs]

/-- No magnitude, finite or not, is nearer to `|q|` than the rounded one, and a tie is broken to even. -/
theorem b64Magnitude_nearest (q : Rat) (m : Nat) :
    abs (b64Value (b64Magnitude q) - abs q) ≤ abs (b64Value m - abs q) ∧
    (abs (b64Value (b64Magnitude q) - abs q) = abs (b64Value m - abs q) → m ≠ b64Magnitude q →
      b64Magnitude q % 2 = 0) := by
  have hpos : (0 : Rat) < 2 ^ 1074 * q.den := mul_pos (by positivity) (Nat.cast_pos.mpr q.den_pos)
  simp only [abs_b64Value_sub, div_le_div_iff_of_pos_right hpos, div_left_inj' hpos.ne', Nat.cast_le, Nat.cast_inj]
  exact b64RoundMagnitude_nearest q.num.natAbs m q.den_pos

/-- Settles O44: the rounded magnitude has the least error among all magnitudes, an even one on a tie. -/
theorem roundsToNearestEven : Obligations.RoundsToNearestEven := by
  unfold Obligations.RoundsToNearestEven
  exact fun q m _ _ => b64Magnitude_nearest q m

/-! ## The patterns of binary64 -/

theorem b64Value_nonneg (m : Nat) : 0 ≤ b64Value m := by
  rw [b64Value_eq_units]
  positivity

theorem b64Value_pos {m : Nat} (hm : m ≠ 0) : 0 < b64Value m := by
  have hunits : 0 < b64Units m := (Nat.zero_le _).trans_lt (b64Units_strictMono (Nat.pos_of_ne_zero hm))
  rw [b64Value_eq_units]
  positivity

theorem b64Value_injective : Function.Injective b64Value := by
  intro m k h
  rw [b64Value_eq_units, b64Value_eq_units, div_left_inj' (by positivity), Nat.cast_inj] at h
  exact b64Units_strictMono.injective h

theorem b64Magnitude_neg (q : Rat) : b64Magnitude (-q) = b64Magnitude q := by
  simp [b64Magnitude]

/-- A representable value is rounded to itself: its own magnitude has no error, so the nearest one has none. -/
theorem b64Magnitude_b64Value (m : Nat) : b64Magnitude (b64Value m) = m := by
  have hnearest := b64Magnitude_nearest (b64Value m) m
  rw [abs_of_nonneg (b64Value_nonneg m), sub_self, abs_zero] at hnearest
  exact b64Value_injective (sub_eq_zero.mp (abs_nonpos_iff.mp hnearest.1))

/-- Encoding a magnitude's value with a sign gives back sign and magnitude. -/
theorem b64Enc_b64OfMagnitude (neg : Bool) {m : Nat} (hm : m ≤ b64InfMagnitude) :
    b64Enc (b64OfMagnitude neg m) = b64Word neg m := by
  unfold b64OfMagnitude
  split
  case isTrue hinf => rw [Nat.le_antisymm hm hinf, b64Enc]
  case isFalse =>
    by_cases hzero : m = 0
    · subst hzero
      cases neg <;> simp [b64Enc, b64Magnitude, b64RoundMagnitude]
    · have hpos := b64Value_pos hzero
      cases neg
      · simp [b64Enc, hzero, hpos.not_gt, b64Magnitude_b64Value, hm]
      · simp [b64Enc, hzero, hpos, b64Magnitude_neg, b64Magnitude_b64Value, hm]

theorem b64Word_of_fields (w : Word) : b64Word (w.getLsbD 63) (w.toNat % 2 ^ 63) = w := by
  apply BitVec.eq_of_toNat_eq
  have hsign : (w.getLsbD 63).toNat = w.toNat / 2 ^ 63 := by
    rw [BitVec.getLsbD, Nat.testBit_eq_decide_div_mod_eq, Nat.mod_eq_of_lt (by have := w.isLt; omega)]
    have : w.toNat / 2 ^ 63 < 2 := by have := w.isLt; omega
    interval_cases w.toNat / 2 ^ 63 <;> rfl
  rw [b64Word, BitVec.toNat_ofNat, hsign, Nat.mul_comm, Nat.div_add_mod, Nat.mod_eq_of_lt w.isLt]

theorem b64Enc_b64Dec (w : Word) : b64Enc (b64Dec w) = b64Word (w.getLsbD 63) (w.toNat % 2 ^ 63) := by
  unfold b64Dec
  dsimp only
  split
  case isTrue hnan =>
    have hfraction : b64InfMagnitude + (w.toNat % 2 ^ 63 - b64InfMagnitude - 1 + 1) = w.toNat % 2 ^ 63 := by omega
    simp only [b64Enc, hfraction]
  case isFalse hfinite => exact b64Enc_b64OfMagnitude _ (Nat.le_of_not_lt hfinite)

/-- Settles O43: `enc` gives back the fields that `dec` read, and the fields make up the word. -/
theorem binary64PatternIdentity : Obligations.Binary64PatternIdentity := by
  unfold Obligations.Binary64PatternIdentity
  exact fun w => (b64Enc_b64Dec w).trans (b64Word_of_fields w)

end Sys2Proof

namespace Sys2Proof.Machine

/-! ## The step and the port (R24) -/

theorem takePort_of_port {s : State} {e : PortEvent} {rest : List PortEvent} (hport : s.port = e :: rest) :
    takePort s = { s with port := rest } := by
  simp [takePort, hport]

theorem step_command {s : State} {h : Word} {p : List Word} {rest : List PortEvent} {i : Instr}
    (hport : s.port = .command h p :: rest) (hdec : decode (vecLen s) h p = .ok i) :
    step s = exec i (takePort s) := by
  simp [step, hport, hdec]

/-- What a step can do: nothing, the reset event, the answer to a transaction that is no command, or a command. -/
theorem step_cases {s t : State} (hstep : step s = .next t) :
    t = s ∨ t = hwReset (takePort s) ∨ t = { takePort s with resp := some (errorResponse .errIllegal) } ∨
      ∃ i, exec i (takePort s) = .next t := by
  unfold step at hstep
  split at hstep
  · exact .inl (Host.Outcome.next.inj hstep).symm
  · exact .inr (.inl (Host.Outcome.next.inj hstep).symm)
  · split at hstep
    · exact .inr (.inr (.inl (Host.Outcome.next.inj hstep).symm))
    · exact .inr (.inr (.inr ⟨_, hstep⟩))

/-- Settles O7: a placed transaction is the head of the port, and taking it gives the state back. -/
theorem stepRunsDecoded : Obligations.StepRunsDecoded := by
  unfold Obligations.StepRunsDecoded
  constructor
  · intro s h p rest i hport hdec
    rw [step_command hport hdec, takePort_of_port hport]
  · intro s nbits w i hdec
    exact step_command (s := s.withFetchWord nbits w) rfl hdec

/-- Settles O11: every meaning but INIT's begins with the `INITD` check. -/
theorem uninitialisedRefused : Obligations.UninitialisedRefused := by
  unfold Obligations.UninitialisedRefused
  intro i s hinitd hinit
  cases i with
  | init n => exact absurd rfl (hinit n)
  | _ => exact whenInit_false _ _ hinitd

/-! ## What a command can change (R38) -/

/-- A loop over the channels whose turns write the three per-channel stores writes no others. -/
theorem forChannels_frame (n : Nat) (body : Nat → State → State) (s : State)
    (hbody : ∀ c t, body c t =
      { t with iir := (body c t).iir, enw := (body c t).enw, ensum := (body c t).ensum }) :
    forChannels n body s = { s with
      iir := (forChannels n body s).iir, enw := (forChannels n body s).enw
      ensum := (forChannels n body s).ensum } := by
  refine forChannels_keeps (P := fun t => t = { s with iir := t.iir, enw := t.enw, ensum := t.ensum }) n body s rfl ?_
  intro c t _ ht
  rw [hbody, ht]

/-- IIRRSTA's loop writes the filter histories alone, in every state. -/
theorem forChannels_iirReset_frame (n : Nat) (s : State) :
    forChannels n iirReset s = { s with iir := (forChannels n iirReset s).iir } := by
  refine forChannels_keeps (P := fun t => t = { s with iir := t.iir }) n iirReset s rfl ?_
  intro c t _ ht
  rw [iirReset, ht]

/-- ENRSTA's loop writes the windows and the energies alone, in every state. -/
theorem forChannels_enReset_frame (n : Nat) (s : State) :
    forChannels n enReset s =
      { s with enw := (forChannels n enReset s).enw, ensum := (forChannels n enReset s).ensum } := by
  refine forChannels_keeps (P := fun t => t = { s with enw := t.enw, ensum := t.ensum }) n enReset s rfl ?_
  intro c t _ ht
  rw [enReset, ht]

theorem pipelineReset_frame (s : State) :
    pipelineReset s = { s with
      deccnt := (pipelineReset s).deccnt, firh := (pipelineReset s).firh, iir := (pipelineReset s).iir
      enw := (pipelineReset s).enw, ensum := (pipelineReset s).ensum } := by
  rw [pipelineReset, forChannels_frame s.nch resetChannel (firReset s) fun _ _ => rfl]
  rfl

/-- The tick of ADDS on a sample that does not decimate. -/
theorem addSample_hold {x : NumVal} {s : State} (hrun : s.deccnt + 1 ≠ s.cfg.decim) :
    (addSample x s).2 = (firProcess x false { s with deccnt := s.deccnt + 1 }).2 := by
  simp [addSample, hrun]

/-- The tick of ADDS on a sample that decimates: every channel's turn, and the counter again at zero. -/
theorem addSample_run {x : NumVal} {s : State} (hrun : s.deccnt + 1 = s.cfg.decim) :
    (addSample x s).2 =
      forChannels s.nch (channelTick (firProcess x true s).1) { s with deccnt := 0, firh := s.firh.save x } := by
  simp only [addSample, hrun, decide_true, if_true]
  rfl

theorem addSample_frame (x : NumVal) (s : State) :
    (addSample x s).2 = { s with
      deccnt := (addSample x s).2.deccnt, firh := (addSample x s).2.firh, iir := (addSample x s).2.iir
      enw := (addSample x s).2.enw, ensum := (addSample x s).2.ensum } := by
  by_cases hrun : s.deccnt + 1 = s.cfg.decim
  · rw [addSample_run hrun, forChannels_frame s.nch (channelTick _) _ fun _ _ => rfl]
  · rw [addSample_hold hrun]
    rfl

/-- What command `i` may do to the registers of `s`: the columns of R38's table, one constructor for each command with
a `w` in its column, under the conditions its meaning checks. The response is left out. -/
inductive Effect (s : State) : Instr → State → Prop
  /-- A read, a refusal, or a CHK that latches nothing. -/
  | nothing (i : Instr) : Effect s i s
  | init (n : Nat) (hinit : s.initd = false) (hn : countValid s n = true) :
    Effect s (.init n) { s with toRegs := initRegs s.cfg n, initd := true }
  | reset (hinit : s.initd = true) : Effect s .reset { s with
      deccnt := (pipelineReset s).deccnt, firh := (pipelineReset s).firh, iir := (pipelineReset s).iir
      enw := (pipelineReset s).enw, ensum := (pipelineReset s).ensum }
  | adds (x : Word) (hinit : s.initd = true) : Effect s (.adds x) { s with
      deccnt := (addSample (numOperand s x) s).2.deccnt, firh := (addSample (numOperand s x) s).2.firh
      iir := (addSample (numOperand s x) s).2.iir, enw := (addSample (numOperand s x) s).2.enw
      ensum := (addSample (numOperand s x) s).2.ensum }
  | firp (x : Word) (run : Bool) (hinit : s.initd = true) :
    Effect s (.firp x run) (firProcess (numOperand s x) run s).2
  | firrst (hinit : s.initd = true) : Effect s .firrst (firReset s)
  | iirp (c : Nat) (x : Word) (hinit : s.initd = true) (hc : c < s.nch) :
    Effect s (.iirp c x) (iirProcess c (numOperand s x) s).2
  | iirrst (c : Nat) (hinit : s.initd = true) (hc : c < s.nch) : Effect s (.iirrst c) (iirReset c s)
  | iirrsta (hinit : s.initd = true) : Effect s .iirrsta { s with iir := (forChannels s.nch iirReset s).iir }
  | enupd (c : Nat) (x : Word) (hinit : s.initd = true) (hc : c < s.nch) :
    Effect s (.enupd c x) (enUpdate c (numOperand s x) s).2
  | enrsta (hinit : s.initd = true) : Effect s .enrsta { s with
      enw := (forChannels s.nch enReset s).enw, ensum := (forChannels s.nch enReset s).ensum }
  | setch (m : Word) (hinit : s.initd = true) (hm : maskValid s m = true) : Effect s (.setch m) { s with mask := m }
  | settf (f : Word) (hinit : s.initd = true) (hf : factorValid s (numOperand s f) = true) :
    Effect s (.settf f) { s with tf := numOperand s f }
  | ign (g : Bool) (hinit : s.initd = true) : Effect s (.ign g) { s with ignore := g }
  | chk (ev : List Word) (c : Nat) (hinit : s.initd = true) (hc : c < s.nch) :
    Effect s (.chk ev) { s with hit := true, hitch := c }
  | clrhit (hinit : s.initd = true) : Effect s .clrhit { s with hit := false }
  | detrst (hinit : s.initd = true) : Effect s .detrst
      { s with mask := allChannels s.nch, tf := s.cfg.tfReset, ignore := false, hit := false, hitch := 0 }

/-- The result is command `i`'s effect on `s` with a response. -/
def Answers (s : State) (i : Instr) (res : Result) : Prop :=
  ∃ u r, Effect s i u ∧ res = .next { u with resp := some r }

theorem answers_respond {s u : State} {i : Instr} (b : Bool) (n : Nat) (p : List Word) (h : Effect s i u) :
    Answers s i (respond b n p u) := ⟨u, _, h, rfl⟩

theorem answers_raise (st : Status) (s : State) (i : Instr) : Answers s i (raise st s) := ⟨s, _, .nothing i, rfl⟩

theorem answers_whenInit {s : State} {i : Instr} {body : Result} (h : s.initd = true → Answers s i body) :
    Answers s i (whenInit s body) := by
  cases hinit : s.initd with
  | true =>
    rw [whenInit_true s body hinit]
    exact h hinit
  | false =>
    rw [whenInit_false s body hinit]
    exact answers_raise .errUninit s i

/-- A meaning that first checks a condition and refuses where it fails. -/
theorem answers_guard {s : State} {i : Instr} {g : Bool} {body : Result} {st : Status}
    (h : g = true → Answers s i body) : Answers s i (if g then body else raise st s) := by
  split
  · exact h ‹_›
  · exact answers_raise st s i

theorem effect_latch {s : State} {ev : List Word} (hinit : s.initd = true) (hlen : ev.length = s.nch) :
    Effect s (.chk ev) (latch (decision s.num s.mask s.tf (vecOperand s ev)) s) := by
  cases hd : decision s.num s.mask s.tf (vecOperand s ev) with
  | none => exact .nothing _
  | some c => exact .chk ev c hinit (by simpa [vecOperand, hlen] using (decision_mem hd).1)

theorem answers_execInit (n : Nat) (s : State) : Answers s (.init n) (execInit n s) := by
  unfold execInit
  split
  · exact answers_raise ..
  · exact answers_guard fun hn => answers_respond _ _ _ (.init n (Bool.eq_false_of_not_eq_true ‹_›) hn)

theorem answers_execChk (ev : List Word) (s : State) : Answers s (.chk ev) (execChk ev s) := by
  refine answers_whenInit fun hinit => ?_
  split
  · exact answers_raise ..
  · split
    · exact answers_respond _ _ _ (.nothing _)
    · split
      · exact answers_respond _ _ _ (.nothing _)
      · exact answers_respond _ _ _ (effect_latch hinit (not_not.mp ‹_›))

/-- Every command in every state is answered, and has its effect or none. -/
theorem answers_exec (i : Instr) (s : State) : Answers s i (exec i s) := by
  cases i with
  | init n => exact answers_execInit n s
  | reset =>
    refine answers_whenInit fun hinit => answers_respond _ _ _ ?_
    rw [pipelineReset_frame]
    exact .reset hinit
  | adds x =>
    refine answers_whenInit fun hinit => answers_respond _ _ _ ?_
    rw [addSample_frame]
    exact .adds x hinit
  | firp x run => exact answers_whenInit fun hinit => answers_respond _ _ _ (.firp x run hinit)
  | firrst => exact answers_whenInit fun hinit => answers_respond _ _ _ (.firrst hinit)
  | iirp c x =>
    exact answers_whenInit fun hinit => answers_guard fun hc =>
      answers_respond _ _ _ (.iirp c x hinit (of_decide_eq_true hc))
  | iirrst c =>
    exact answers_whenInit fun hinit => answers_guard fun hc =>
      answers_respond _ _ _ (.iirrst c hinit (of_decide_eq_true hc))
  | iirrsta =>
    refine answers_whenInit fun hinit => answers_respond _ _ _ ?_
    rw [forChannels_iirReset_frame]
    exact .iirrsta hinit
  | enupd c x =>
    exact answers_whenInit fun hinit => answers_guard fun hc =>
      answers_respond _ _ _ (.enupd c x hinit (of_decide_eq_true hc))
  | enrsta =>
    refine answers_whenInit fun hinit => answers_respond _ _ _ ?_
    rw [forChannels_enReset_frame]
    exact .enrsta hinit
  | setch m => exact answers_whenInit fun hinit => answers_guard fun hm => answers_respond _ _ _ (.setch m hinit hm)
  | settf f => exact answers_whenInit fun hinit => answers_guard fun hf => answers_respond _ _ _ (.settf f hinit hf)
  | ign g => exact answers_whenInit fun hinit => answers_respond _ _ _ (.ign g hinit)
  | chk ev => exact answers_execChk ev s
  | clrhit => exact answers_whenInit fun hinit => answers_respond _ _ _ (.clrhit hinit)
  | detrst => exact answers_whenInit fun hinit => answers_respond _ _ _ (.detrst hinit)
  | getfirc | getsosc | geten =>
    exact answers_whenInit fun _ => answers_guard fun _ => answers_respond _ _ _ (.nothing _)
  | getfirn | getsoss | getsosn | getena | gethit | gethitch =>
    exact answers_whenInit fun _ => answers_respond _ _ _ (.nothing _)

/-- What a command can do, from its outcome: its effect, and a response. -/
theorem effect_of_exec {s t : State} {i : Instr} (hexec : exec i s = .next t) :
    ∃ u r, Effect s i u ∧ t = { u with resp := some r } := by
  obtain ⟨u, r, heffect, hnext⟩ := answers_exec i s
  exact ⟨u, r, heffect, Host.Outcome.next.inj (hexec.symm.trans hnext)⟩

/-! ### The rows of R38's table: who writes a register -/

section WriteSets

variable {s u : State} {i : Instr}

theorem Effect.initd_nch_writer (h : Effect s i u) (hne : u.initd ≠ s.initd ∨ u.nch ≠ s.nch) : ∃ n, i = .init n := by
  cases h with
  | init n => exact ⟨n, rfl⟩
  | _ => exact hne.elim (absurd rfl) (absurd rfl)

theorem Effect.deccnt_writer (h : Effect s i u) (hne : u.deccnt ≠ s.deccnt) :
    (∃ n, i = .init n) ∨ i = .reset ∨ ∃ x, i = .adds x := by
  cases h with
  | init | reset | adds => simp
  | _ => exact absurd rfl hne

theorem Effect.firh_writer (h : Effect s i u) (hne : u.firh ≠ s.firh) :
    (∃ n, i = .init n) ∨ i = .reset ∨ (∃ x, i = .adds x) ∨ (∃ x run, i = .firp x run) ∨ i = .firrst := by
  cases h with
  | init | reset | adds | firp | firrst => simp
  | _ => exact absurd rfl hne

theorem Effect.iir_writer (h : Effect s i u) (hne : u.iir ≠ s.iir) :
    (∃ n, i = .init n) ∨ i = .reset ∨ (∃ x, i = .adds x) ∨ (∃ c x, i = .iirp c x) ∨ (∃ c, i = .iirrst c) ∨
      i = .iirrsta := by
  cases h with
  | init | reset | adds | iirp | iirrst | iirrsta => simp
  | _ => exact absurd rfl hne

theorem Effect.energy_writer (h : Effect s i u) (hne : u.enw ≠ s.enw ∨ u.ensum ≠ s.ensum) :
    (∃ n, i = .init n) ∨ i = .reset ∨ (∃ x, i = .adds x) ∨ (∃ c x, i = .enupd c x) ∨ i = .enrsta := by
  cases h with
  | init | reset | adds | enupd | enrsta => simp
  | _ => exact hne.elim (absurd rfl) (absurd rfl)

theorem Effect.mask_writer (h : Effect s i u) (hne : u.mask ≠ s.mask) :
    (∃ n, i = .init n) ∨ (∃ m, i = .setch m) ∨ i = .detrst := by
  cases h with
  | init | setch | detrst => simp
  | _ => exact absurd rfl hne

theorem Effect.tf_writer (h : Effect s i u) (hne : u.tf ≠ s.tf) :
    (∃ n, i = .init n) ∨ (∃ f, i = .settf f) ∨ i = .detrst := by
  cases h with
  | init | settf | detrst => simp
  | _ => exact absurd rfl hne

theorem Effect.ignore_writer (h : Effect s i u) (hne : u.ignore ≠ s.ignore) :
    (∃ n, i = .init n) ∨ (∃ g, i = .ign g) ∨ i = .detrst := by
  cases h with
  | init | ign | detrst => simp
  | _ => exact absurd rfl hne

theorem Effect.hit_writer (h : Effect s i u) (hne : u.hit ≠ s.hit) :
    (∃ n, i = .init n) ∨ (∃ ev, i = .chk ev) ∨ i = .clrhit ∨ i = .detrst := by
  cases h with
  | init | chk | clrhit | detrst => simp
  | _ => exact absurd rfl hne

theorem Effect.hitch_writer (h : Effect s i u) (hne : u.hitch ≠ s.hitch) :
    (∃ n, i = .init n) ∨ (∃ ev, i = .chk ev) ∨ i = .detrst := by
  cases h with
  | init | chk | detrst => simp
  | _ => exact absurd rfl hne

/-- IIRP and IIRRST of one channel leave the histories of the others. -/
theorem Effect.iirOf_other {c d : Nat} (h : Effect s i u) (hcd : c ≠ d)
    (hi : i = .iirrst c ∨ ∃ x, i = .iirp c x) : iirOf u d = iirOf s d := by
  obtain rfl | ⟨x, rfl⟩ := hi
  · cases h with
    | nothing => rfl
    | iirrst => rw [iirOf_iirReset, if_neg fun hd => hcd hd.1.symm]
  · cases h with
    | nothing => rfl
    | iirp => rw [iirOf_iirProcess, if_neg fun hd => hcd hd.1.symm]

/-- ENUPD of one channel leaves the windows and energies of the others. -/
theorem Effect.energy_other {c d : Nat} {x : Word} (h : Effect s (.enupd c x) u) (hcd : c ≠ d) :
    enwOf u d = enwOf s d ∧ ensumOf u d = ensumOf s d := by
  cases h with
  | nothing => exact ⟨rfl, rfl⟩
  | enupd =>
    rw [enwOf_enUpdate, ensumOf_enUpdate, if_neg fun hd => hcd hd.1.symm, if_neg fun hd => hcd hd.1.symm]
    exact ⟨rfl, rfl⟩

end WriteSets

/-- Settles O58, register by register from the command's effect; the response is no register. -/
theorem writeSets : Obligations.WriteSets := by
  unfold Obligations.WriteSets
  intro i s t hexec
  obtain ⟨u, r, h, rfl⟩ := effect_of_exec hexec
  exact ⟨h.initd_nch_writer, h.deccnt_writer, h.firh_writer, h.iir_writer, h.energy_writer, h.mask_writer,
    h.tf_writer, h.ignore_writer, h.hit_writer, h.hitch_writer, fun c d hcd hi => h.iirOf_other hcd hi,
    fun c d x hcd hi => (hi ▸ h).energy_other hcd⟩

/-! ## Good states (R26 to R36) -/

/-- What R8's bounds give the registers that INIT, the counter and DETRST set. -/
theorem configValid_facts {k : Config} (h : configValid k = true) :
    1 ≤ k.decim ∧ 1 ≤ k.energyWindow ∧ (numOps k.num).finite k.tfReset = true ∧
      (numOps k.num).gt k.tfReset (numOps k.num).zero = true := by
  simp only [configValid, Bool.and_eq_true, decide_eq_true_eq] at h
  tauto

theorem allChannels_lt (n : Nat) : (allChannels n).toNat < 2 ^ n := by
  have hmod : (2 ^ n - 1) % 2 ^ 64 ≤ 2 ^ n - 1 := Nat.mod_le ..
  have hpos := Nat.two_pow_pos n
  rw [allChannels, BitVec.toNat_ofNat]
  omega

/-- INIT's registers have the sizes and ranges of R26 to R36. -/
theorem regsValid_initRegs {k : Config} {n : Nat} (hk : configValid k = true) (hpos : 1 ≤ n) (hmax : n ≤ k.nchMax) :
    regsValid k (initRegs k n) = true := by
  obtain ⟨hdecim, _, hfinite, hgt⟩ := configValid_facts hk
  rw [regsValid_iff]
  refine ⟨⟨hpos, hmax, hdecim, DelayLine.capacity_create ..⟩, ⟨List.length_replicate, ?_⟩,
    ⟨List.length_replicate, ?_, List.length_replicate⟩, allChannels_lt n, hfinite, hgt, hpos⟩
  · intro row hrow
    obtain rfl := List.eq_of_mem_replicate hrow
    simp [sectionSized]
  · intro d hd
    obtain rfl := List.eq_of_mem_replicate hd
    exact DelayLine.capacity_create ..

theorem regsValid_deccnt {k : Config} {r : Regs} {m : Nat} (hm : m < k.decim) (h : regsValid k r = true) :
    regsValid k { r with deccnt := m } = true := by
  rw [regsValid_iff] at h ⊢
  obtain ⟨⟨hpos, hmax, _, hfirh⟩, hrest⟩ := h
  exact ⟨⟨hpos, hmax, hm, hfirh⟩, hrest⟩

/-- The detector's registers enter the sizes and ranges through the mask, the factor and the latched channel alone. -/
theorem regsValid_detector {k : Config} {r : Regs} {mask : Word} {tf : NumVal} {ignore hit : Bool} {hitch : Nat}
    (h : regsValid k r = true) (hmask : mask.toNat < 2 ^ r.nch) (hfinite : (numOps k.num).finite tf = true)
    (hgt : (numOps k.num).gt tf (numOps k.num).zero = true) (hhitch : hitch < r.nch) :
    regsValid k { r with mask := mask, tf := tf, ignore := ignore, hit := hit, hitch := hitch } = true := by
  rw [regsValid_iff] at h ⊢
  obtain ⟨hfir, hiir, hen, _⟩ := h
  exact ⟨hfir, hiir, hen, hmask, hfinite, hgt, hhitch⟩

theorem regsValid_resetChannel (c : Nat) (s : State) (hc : c < s.nch) (h : regsValid s.cfg s.toRegs = true) :
    regsValid s.cfg (resetChannel c s).toRegs = true :=
  regsValid_enReset c (iirReset c s) hc (regsValid_iirReset c s hc h)

theorem regsValid_channelTick (y : NumVal) (c : Nat) (s : State) (hc : c < s.nch)
    (h : regsValid s.cfg s.toRegs = true) : regsValid s.cfg (channelTick y c s).toRegs = true :=
  regsValid_enUpdate c _ (iirProcess c y s).2 hc (regsValid_iirProcess c y s hc h)

theorem regsValid_pipelineReset {s : State} (hk : configValid s.cfg = true) (h : regsValid s.cfg s.toRegs = true) :
    regsValid s.cfg (pipelineReset s).toRegs = true :=
  have hloop := regsValid_forChannels resetChannel (firReset s) (fun _ _ => rfl) (fun _ _ => rfl)
    regsValid_resetChannel (regsValid_firReset s h)
  regsValid_deccnt (configValid_facts hk).1 hloop.2.2

/-- ADDS keeps the sizes: the counter stays below D, or is set to 0 where it would reach D (R154). -/
theorem regsValid_addSample {x : NumVal} {s : State} (hk : configValid s.cfg = true)
    (h : regsValid s.cfg s.toRegs = true) : regsValid s.cfg (addSample x s).2.toRegs = true := by
  have hfir (run : Bool) : regsValid s.cfg (firProcess x run s).2.toRegs = true := regsValid_firProcess x run s h
  by_cases hrun : s.deccnt + 1 = s.cfg.decim
  · rw [addSample_run hrun]
    generalize (firProcess x true s).1 = y
    have hstart := regsValid_deccnt (configValid_facts hk).1 (hfir true)
    exact (regsValid_forChannels (channelTick y) { s with deccnt := 0, firh := s.firh.save x } (fun _ _ => rfl)
      (fun _ _ => rfl) (regsValid_channelTick y) hstart).2.2
  · rw [addSample_hold hrun]
    obtain ⟨⟨_, _, hbelow, _⟩, _⟩ := (regsValid_iff _ _).mp h
    have hcount : s.deccnt + 1 < s.cfg.decim := by omega
    exact regsValid_deccnt (r := (firProcess x false s).2.toRegs) hcount (hfir false)

/-- Every command's effect keeps an initialised good state good. -/
theorem Effect.regsValid {s u : State} {i : Instr} (heffect : Effect s i u) (hinit : s.initd = true)
    (hk : configValid s.cfg = true) (h : regsValid s.cfg s.toRegs = true) : regsValid s.cfg u.toRegs = true := by
  obtain ⟨⟨hpos, _⟩, _, _, hmask, hfinite, hgt, hhitch⟩ := (regsValid_iff _ _).mp h
  cases heffect with
  | nothing => exact h
  | init n huninit => exact absurd (huninit.symm.trans hinit) Bool.false_ne_true
  | reset =>
    rw [← pipelineReset_frame]
    exact regsValid_pipelineReset hk h
  | adds x =>
    rw [← addSample_frame]
    exact regsValid_addSample hk h
  | firp x run => exact regsValid_firProcess _ run s h
  | firrst => exact regsValid_firReset s h
  | iirp c x _ hc => exact regsValid_iirProcess c _ s hc h
  | iirrst c _ hc => exact regsValid_iirReset c s hc h
  | iirrsta =>
    rw [← forChannels_iirReset_frame]
    exact (regsValid_forChannels iirReset s (fun _ _ => rfl) (fun _ _ => rfl) regsValid_iirReset h).2.2
  | enupd c x _ hc => exact regsValid_enUpdate c _ s hc h
  | enrsta =>
    rw [← forChannels_enReset_frame]
    exact (regsValid_forChannels enReset s (fun _ _ => rfl) (fun _ _ => rfl) regsValid_enReset h).2.2
  | setch m _ hm => exact regsValid_detector h ((maskValid_iff_lt s m).mp hm) hfinite hgt hhitch
  | settf f _ hf =>
    obtain ⟨hfinite', hgt'⟩ := Bool.and_eq_true_iff.mp hf
    exact regsValid_detector h hmask hfinite' hgt' hhitch
  | ign | clrhit => exact regsValid_detector h hmask hfinite hgt hhitch
  | chk ev c _ hc => exact regsValid_detector h hmask hfinite hgt hc
  | detrst =>
    obtain ⟨_, _, hfinite', hgt'⟩ := configValid_facts hk
    exact regsValid_detector h (allChannels_lt _) hfinite' hgt' hpos

theorem Effect.cfg_eq {s u : State} {i : Instr} (heffect : Effect s i u) : u.cfg = s.cfg := by
  cases heffect <;> rfl

/-- `INITD` is set by INIT alone, in a state that is not initialised. -/
theorem Effect.initd_cases {s u : State} {i : Instr} (heffect : Effect s i u) :
    u.initd = s.initd ∨ ∃ n, countValid s n = true ∧ u = { s with toRegs := initRegs s.cfg n, initd := true } := by
  cases heffect with
  | init n _ hn => exact .inr ⟨n, hn, rfl⟩
  | _ => exact .inl rfl

theorem wf_of_regsValid {s : State} (hk : configValid s.cfg = true)
    (h : s.initd = true → regsValid s.cfg s.toRegs = true) : s.wf = true := by
  cases hinit : s.initd with
  | false => simp [State.wf, hk, hinit]
  | true => simp [State.wf, hk, hinit, h hinit]

theorem wf_config {s : State} (hw : s.wf = true) : configValid s.cfg = true := (Bool.and_eq_true_iff.mp hw).1

theorem Effect.wf {s u : State} {i : Instr} (heffect : Effect s i u) (hw : s.wf = true) : u.wf = true := by
  have hk := wf_config hw
  refine wf_of_regsValid (heffect.cfg_eq ▸ hk) fun hu => ?_
  rw [heffect.cfg_eq]
  obtain hinit | ⟨n, hn, rfl⟩ := heffect.initd_cases
  · have hs := hinit ▸ hu
    exact heffect.regsValid hs hk (wf_initd hw hs).2
  · obtain ⟨hpos, hmax⟩ := Bool.and_eq_true_iff.mp hn
    exact regsValid_initRegs hk (of_decide_eq_true hpos) (of_decide_eq_true hmax)

/-- Settles O56: taking an event and answering touch nothing a good state speaks of, HWRESET clears `INITD`, and a
command has its effect. -/
theorem goodStateKept : Obligations.GoodStateKept := by
  unfold Obligations.GoodStateKept
  intro s t hw hstep
  have hk := wf_config hw
  obtain rfl | rfl | rfl | ⟨i, hexec⟩ := step_cases hstep
  · exact hw
  · exact wf_of_regsValid hk nofun
  · exact hw
  · obtain ⟨u, r, heffect, rfl⟩ := effect_of_exec hexec
    exact heffect.wf hw

/-! ## The energy invariant in exact arithmetic (R23) -/

/-- Saving into a window adds the value that enters to its sum and takes away the one that leaves. -/
theorem windowSum_save {d : DelayLine} (z v : NumVal) (hpos : 1 ≤ d.capacity) :
    windowSum (d.save v) = windowSum d + (v.toRat - (d.read z (d.capacity - 1)).toRat) := by
  obtain ⟨hist⟩ := d
  obtain rfl | ⟨newer, oldest, rfl⟩ := List.eq_nil_or_concat hist
  · exact absurd hpos (Nat.not_succ_le_zero 0)
  · simp [windowSum, DelayLine.save, DelayLine.read, DelayLine.capacity, add_comm]

/-- A window of zeros has the sum 0. -/
theorem windowSum_create {z : NumVal} (hz : z.toRat = 0) (n : Nat) : windowSum (DelayLine.create z n) = 0 := by
  simp [windowSum, DelayLine.create, hz]

/-- An initialised good state of `NUM_EXACT` with R23's invariant. -/
structure ExactGood (s : State) : Prop where
  exact : s.cfg.num = .exact
  config : configValid s.cfg = true
  regs : regsValid s.cfg s.toRegs = true
  energy : energyInvariant s

theorem State.num_exact {s : State} (hx : s.cfg.num = .exact) : s.num = numExact := by
  rw [State.num, hx, numOps]

theorem toRat_enUpdate {s : State} (hx : s.cfg.num = .exact) (c : Nat) (x : NumVal) :
    (enUpdate c x s).1.toRat = (ensumOf s c).toRat +
      ((s.num.mul x x).toRat - ((enwOf s c).read s.num.zero (s.cfg.energyWindow - 1)).toRat) := by
  rw [enUpdate, State.num_exact hx]
  rfl

namespace ExactGood

variable {s : State} {c : Nat}

/-- A channel in use has its entry in each energy store, and its window has capacity W. -/
theorem stores (h : ExactGood s) (hc : c < s.nch) :
    c < s.enw.length ∧ c < s.ensum.length ∧ (enwOf s c).capacity = s.cfg.energyWindow := by
  obtain ⟨_, _, ⟨henw, hcap, hensum⟩, _⟩ := (regsValid_iff _ _).mp h.regs
  have hlt : c < s.enw.length := henw ▸ hc
  exact ⟨hlt, hensum ▸ hc, hcap _ (getD_mem hlt)⟩

theorem enUpdate (h : ExactGood s) (x : NumVal) (hc : c < s.nch) : ExactGood (enUpdate c x s).2 where
  exact := h.exact
  config := h.config
  regs := regsValid_enUpdate c x s hc h.regs
  energy d hd := by
    obtain ⟨henw, hensum, hcap⟩ := h.stores hc
    rw [ensumOf_enUpdate, enwOf_enUpdate]
    by_cases hdc : d = c
    · rw [if_pos ⟨hdc, hensum⟩, if_pos ⟨hdc, henw⟩, toRat_enUpdate h.exact, h.energy c hc,
        windowSum_save s.num.zero _ (hcap ▸ (configValid_facts h.config).2.1), hcap]
    · rw [if_neg fun hd => hdc hd.1, if_neg fun hd => hdc hd.1]
      exact h.energy d hd

theorem enReset (h : ExactGood s) (hc : c < s.nch) : ExactGood (enReset c s) where
  exact := h.exact
  config := h.config
  regs := regsValid_enReset c s hc h.regs
  energy d hd := by
    obtain ⟨henw, hensum, _⟩ := h.stores hc
    have hzero : s.num.zero.toRat = 0 := by rw [State.num_exact h.exact]; rfl
    rw [ensumOf_enReset, enwOf_enReset]
    by_cases hdc : d = c
    · rw [if_pos ⟨hdc, hensum⟩, if_pos ⟨hdc, henw⟩, DelayLine.reset_eq_create, windowSum_create hzero, hzero]
    · rw [if_neg fun hd => hdc hd.1, if_neg fun hd => hdc hd.1]
      exact h.energy d hd

theorem resetChannel (h : ExactGood s) (hc : c < s.nch) : ExactGood (resetChannel c s) :=
  have hiir : ExactGood (iirReset c s) := { h with regs := regsValid_iirReset c s hc h.regs }
  hiir.enReset hc

theorem channelTick (h : ExactGood s) (y : NumVal) (hc : c < s.nch) : ExactGood (channelTick y c s) :=
  have hiir : ExactGood (iirProcess c y s).2 := { h with regs := regsValid_iirProcess c y s hc h.regs }
  hiir.enUpdate _ hc

/-- A loop over the channels in use whose turns keep the invariant and the channel count keeps the invariant. -/
theorem forChannels (h : ExactGood s) {body : Nat → State → State} (hnch : ∀ c t, (body c t).nch = t.nch)
    (hbody : ∀ c t, ExactGood t → c < t.nch → ExactGood (body c t)) : ExactGood (forChannels s.nch body s) :=
  (forChannels_keeps (P := fun t => t.nch = s.nch ∧ ExactGood t) s.nch body s ⟨rfl, h⟩ fun c t hc ht =>
    ⟨(hnch c t).trans ht.1, hbody c t ht.2 (ht.1.symm ▸ hc)⟩).2

theorem pipelineReset (h : ExactGood s) : ExactGood (pipelineReset s) :=
  have hfir : ExactGood (firReset s) := { h with regs := regsValid_firReset s h.regs }
  have hloop := hfir.forChannels (body := Machine.resetChannel) (fun _ _ => rfl) fun _ _ ht hc => ht.resetChannel hc
  { hloop with regs := regsValid_deccnt (configValid_facts hloop.config).1 hloop.regs }

theorem addSample (h : ExactGood s) (x : NumVal) : ExactGood (addSample x s).2 := by
  have hregs : regsValid s.cfg (Machine.addSample x s).2.toRegs = true := regsValid_addSample h.config h.regs
  by_cases hrun : s.deccnt + 1 = s.cfg.decim
  · have hstart := regsValid_deccnt (configValid_facts h.config).1 (regsValid_firProcess x true s h.regs)
    have hfir : ExactGood { s with deccnt := 0, firh := s.firh.save x } := { h with regs := hstart }
    rw [addSample_run hrun]
    exact hfir.forChannels (fun _ _ => rfl) fun _ _ ht hc => ht.channelTick _ hc
  · rw [addSample_hold hrun] at hregs ⊢
    exact { h with regs := hregs }

end ExactGood

/-- After INIT every window holds zeros and every energy is zero. -/
theorem energyInvariant_init {s : State} (hx : s.cfg.num = .exact) (n : Nat) :
    energyInvariant { s with toRegs := initRegs s.cfg n, initd := true } := by
  intro c hc
  have hzero : (numOps s.cfg.num).zero.toRat = 0 := by rw [hx]; rfl
  have hc' : c < n := hc
  simp [ensumOf, enwOf, initRegs, List.getD_eq_getElem?_getD, hc', windowSum_create hzero, hzero]

/-- Every command's effect keeps R23's invariant; the commands not named write neither a window nor an energy. -/
theorem Effect.energyInvariant {s u : State} {i : Instr} (heffect : Effect s i u) (hx : s.cfg.num = .exact)
    (hw : s.wf = true) (he : s.initd = true → energyInvariant s) (hu : u.initd = true) : energyInvariant u := by
  have hgood (hs : s.initd = true) : ExactGood s := ⟨hx, wf_config hw, (wf_initd hw hs).2, he hs⟩
  cases heffect with
  | init n => exact energyInvariant_init hx n
  | reset hs =>
    rw [← pipelineReset_frame]
    exact (hgood hs).pipelineReset.energy
  | adds x hs =>
    rw [← addSample_frame]
    exact ((hgood hs).addSample _).energy
  | enupd c x hs hc => exact ((hgood hs).enUpdate _ hc).energy
  | enrsta hs =>
    rw [← forChannels_enReset_frame]
    exact ((hgood hs).forChannels (body := enReset) (fun _ _ => rfl) fun _ _ ht hc => ht.enReset hc).energy
  | _ => exact he hu

/-- Settles O38: an update adds to the sum what it adds to the window, and HWRESET leaves no initialised state. -/
theorem energyIsWindowSumKept : Obligations.EnergyIsWindowSumKept := by
  unfold Obligations.EnergyIsWindowSumKept
  intro s t hx hw he hstep ht
  obtain rfl | rfl | rfl | ⟨i, hexec⟩ := step_cases hstep
  · exact he ht
  · exact absurd ht Bool.false_ne_true
  · exact he ht
  · obtain ⟨u, r, heffect, rfl⟩ := effect_of_exec hexec
    exact heffect.energyInvariant hx hw he ht

end Sys2Proof.Machine

namespace Sys2Proof

/-! ## Words over a byte-wide transport (R53) -/

/-- A number's `n` lowest digits to the base 256, the least significant first, weighted and added up again. -/
theorem foldr_digits_256 (n m : Nat) :
    ((List.range n).map fun k => m / 256 ^ k % 256).foldr (fun b acc => b + 256 * acc) 0 = m % 256 ^ n := by
  induction n generalizing m with
  | zero => simp [Nat.mod_one]
  | succ n ih =>
    have hshift (k : Nat) : m / 256 ^ (k + 1) = m / 256 / 256 ^ k := by rw [pow_succ', Nat.div_div_eq_div_mul]
    rw [pow_succ', Nat.mod_mul, ← ih (m / 256)]
    simp [List.range_succ_eq_map, Function.comp_def, hshift]

theorem toNat_byte (w : Word) (k : Nat) : (w.extractLsb' (8 * k) 8).toNat = w.toNat / 256 ^ k % 256 := by
  rw [BitVec.extractLsb'_toNat, Nat.shiftRight_eq_div_pow, pow_mul]
  rfl

theorem wordOfBytes_bytesOfWord (w : Word) : wordOfBytes (bytesOfWord w) = w := by
  have hfold : (bytesOfWord w).foldr (fun b acc => b.toNat + 256 * acc) 0 = w.toNat % 256 ^ 8 := by
    rw [← foldr_digits_256]
    simp only [bytesOfWord, List.foldr_map, toNat_byte]
  rw [wordOfBytes, hfold, Nat.mod_eq_of_lt (b := 256 ^ 8) w.isLt, BitVec.ofNat_toNat, BitVec.setWidth_eq]

theorem wordsOfBytes_append (w : Word) (bs : List Byte) :
    wordsOfBytes (bytesOfWord w ++ bs) = (wordsOfBytes bs).map fun ws => w :: ws := by
  conv_rhs => rw [← wordOfBytes_bytesOfWord w]
  rfl

theorem wordsOfBytes_bytesOfWords (ws : List Word) : wordsOfBytes (bytesOfWords ws) = some ws := by
  induction ws with
  | nil => rfl
  | cons w ws ih => rw [bytesOfWords, List.flatMap_cons, wordsOfBytes_append, ← bytesOfWords, ih, Option.map_some]

/-- Settles O6: a word's bytes are its digits to the base 256, so reading the bytes gives the words back, and the
decoder over bytes sees them. -/
theorem transportRoundTrip : Obligations.TransportRoundTrip := by
  unfold Obligations.TransportRoundTrip
  refine ⟨wordsOfBytes_bytesOfWords, fun v h p => ?_⟩
  rw [decodeBytes, wordsOfBytes_bytesOfWords]

end Sys2Proof

namespace Sys2Proof.Machine

/-! ## Reads (R56) -/

theorem Effect.eq_of_readOnly {s u : State} {i : Instr} (heffect : Effect s i u) (hread : readOnlyCommand i = true) :
    u = s := by
  cases heffect with
  | nothing => rfl
  | _ => exact absurd hread Bool.false_ne_true

/-- The answer of a read does not depend on the response before it. -/
theorem exec_withResp_of_readOnly {i : Instr} (hread : readOnlyCommand i = true) (s : State) (r : Option Response) :
    exec i { s with resp := r } = exec i s := by
  cases i with
  | getfirc | getfirn | getsosc | getsoss | getsosn | geten | getena | gethit | gethitch => rfl
  | _ => exact absurd hread Bool.false_ne_true

/-- Settles O59: a read's only effect is its response, and no read looks at the response before it. -/
theorem readsHaveNoSideEffect : Obligations.ReadsHaveNoSideEffect := by
  unfold Obligations.ReadsHaveNoSideEffect
  intro i s t hread hexec
  obtain ⟨u, r, heffect, rfl⟩ := effect_of_exec hexec
  obtain rfl := heffect.eq_of_readOnly hread
  exact ⟨rfl, (exec_withResp_of_readOnly hread u (some r)).trans hexec⟩

end Sys2Proof.Machine

namespace Sys2Proof

/-! ## The opcode table (R78) -/

theorem opcodeTable_op_nodup : (opcodeTable.map OpRow.op).Nodup := by decide

theorem opcodeTable_op_lt : ∀ r ∈ opcodeTable, r.op < 256 := by decide

/-- R78: an opcode has at most one row. -/
theorem OpRow.eq_of_op_eq {r q : OpRow} (hr : r ∈ opcodeTable) (hq : q ∈ opcodeTable) (hop : r.op = q.op) : r = q :=
  List.inj_on_of_nodup_map opcodeTable_op_nodup hr hq hop

theorem mem_and_op_eq_of_rowOf {op : Nat} {r : OpRow} (hrow : rowOf op = some r) : r ∈ opcodeTable ∧ r.op = op := by
  have hfound := List.find?_some hrow
  exact ⟨List.mem_of_find?_eq_some hrow, beq_iff_eq.mp hfound⟩

theorem rowOf_op {r : OpRow} (hr : r ∈ opcodeTable) : rowOf r.op = some r := by
  have hsome : (rowOf r.op).isSome := List.find?_isSome.mpr ⟨r, hr, beq_self_eq_true r.op⟩
  obtain ⟨q, hrow⟩ := Option.isSome_iff_exists.mp hsome
  obtain ⟨hq, hop⟩ := mem_and_op_eq_of_rowOf hrow
  rw [hrow, OpRow.eq_of_op_eq hq hr hop]

/-- What the decoder accepts: a header with a row's opcode, no reserved bit and no field the row's format does not use,
and a payload of the format's length (R79). -/
theorem decode_eq_ok_iff {v : Option Nat} {h : Word} {p : List Word} {i : Instr} :
    decode v h p = .ok i ↔ ∃ r ∈ opcodeTable, opField h = r.op ∧ rsvField h = 0 ∧ r.format.unusedZero h = true ∧
      r.format.takes v p.length = true ∧ r.make h p = i := by
  constructor
  · intro hdec
    unfold decode at hdec
    split at hdec
    · cases hdec
    · rename_i r hrow
      obtain ⟨hr, hop⟩ := mem_and_op_eq_of_rowOf hrow
      split_ifs at hdec with hrsv hunused htakes
      exact ⟨r, hr, hop.symm, not_not.mp hrsv, by simpa using hunused, by simpa using htakes, Except.ok.inj hdec⟩
  · rintro ⟨r, hr, hop, hrsv, hunused, htakes, hmake⟩
    simp [decode, hop, rowOf_op hr, hrsv, hunused, htakes, hmake]

/-! ## Masks and fields (R72, R73) -/

/-- A field of a masked word, where the mask has the field's bits all set or, under `used`, all clear. -/
theorem extractLsb'_and_mask {m : Word} {start len : Nat} {used : Bool} (h : Word)
    (hm : m.extractLsb' start len = if used then 0#len else BitVec.allOnes len) :
    (h &&& m).extractLsb' start len = if used then 0#len else h.extractLsb' start len := by
  rw [BitVec.extractLsb'_and, hm]
  cases used <;> simp

theorem opField_and_mask (h : Word) (fmt : CmdFormat) : opField (h &&& fmt.mask) = opField h := by
  rw [opField, extractLsb'_and_mask (used := false) h (by cases fmt <;> rfl)]
  rfl

theorem rsvField_and_mask (h : Word) (fmt : CmdFormat) : rsvField (h &&& fmt.mask) = rsvField h := by
  rw [rsvField, extractLsb'_and_mask (used := false) h (by cases fmt <;> rfl)]
  rfl

theorem chField_and_mask (h : Word) (fmt : CmdFormat) :
    chField (h &&& fmt.mask) = if fmt.usesCh then 0 else chField h := by
  rw [chField, extractLsb'_and_mask (used := fmt.usesCh) h (by cases fmt <;> rfl), apply_ite BitVec.toNat]
  rfl

theorem idxField_and_mask (h : Word) (fmt : CmdFormat) :
    idxField (h &&& fmt.mask) = if fmt.usesIdx then 0 else idxField h := by
  rw [idxField, extractLsb'_and_mask (used := fmt.usesIdx) h (by cases fmt <;> rfl), apply_ite BitVec.toNat]
  rfl

theorem fField_and_mask (h : Word) (fmt : CmdFormat) :
    fField (h &&& fmt.mask) = (!fmt.usesF && fField h) := by
  rw [fField, extractLsb'_and_mask (used := fmt.usesF) h (by cases fmt <;> rfl)]
  cases fmt.usesF <;> rfl

/-- The fields a format does not use are zero exactly where its mask leaves no operand bit of the header. -/
theorem CmdFormat.unusedZero_iff (fmt : CmdFormat) (h : Word) : fmt.unusedZero h = true ↔
    chField (h &&& fmt.mask) = 0 ∧ idxField (h &&& fmt.mask) = 0 ∧ fField (h &&& fmt.mask) = false := by
  rw [chField_and_mask, idxField_and_mask, fField_and_mask]
  simp [CmdFormat.unusedZero, and_assoc, or_iff_not_imp_left]

/-- A header is known by its five fields (R72). -/
theorem eq_mkHeader_iff {h : Word} {op ch idx : Nat} {f : Bool} (hop : op < 256) (hch : ch < 256)
    (hidx : idx < 65536) : h = mkHeader op ch idx f ↔
      opField h = op ∧ rsvField h = 0 ∧ chField h = ch ∧ idxField h = idx ∧ fField h = f := by
  constructor
  · rintro rfl
    obtain ⟨hop', hch', hidx', hf', hrsv⟩ := fields_mkHeader op ch idx f hop hch hidx
    exact ⟨hop', hrsv, hch', hidx', hf'⟩
  · rintro ⟨rfl, hrsv, rfl, rfl, rfl⟩
    exact (mkHeader_fields h hrsv).symm

theorem OpRow.matchWord_eq_mkHeader (r : OpRow) : r.matchWord = mkHeader r.op 0 0 false := by
  simp [OpRow.matchWord, mkHeader]

/-- R73's mask and match of a row say what the decoder asks of the header's fields. -/
theorem and_mask_eq_matchWord_iff {r : OpRow} (hr : r ∈ opcodeTable) (h : Word) :
    h &&& r.format.mask = r.matchWord ↔
      opField h = r.op ∧ rsvField h = 0 ∧ r.format.unusedZero h = true := by
  rw [OpRow.matchWord_eq_mkHeader, eq_mkHeader_iff (opcodeTable_op_lt r hr) (by decide) (by decide),
    opField_and_mask, rsvField_and_mask, CmdFormat.unusedZero_iff]

/-- Settles O5: a row that matches a header has the header's opcode. -/
theorem opcodeRowsDisjoint : Obligations.OpcodeRowsDisjoint := by
  unfold Obligations.OpcodeRowsDisjoint
  intro h r hr q hq hmatchr hmatchq
  obtain ⟨hopr, _⟩ := (and_mask_eq_matchWord_iff hr h).mp hmatchr
  obtain ⟨hopq, _⟩ := (and_mask_eq_matchWord_iff hq h).mp hmatchq
  rw [OpRow.eq_of_op_eq hr hq (hopr.symm.trans hopq)]

/-- Settles O4: the decoder accepts a header by the fields of a row, which are the row's mask and match. -/
theorem decodeAcceptsMaskMatch : Obligations.DecodeAcceptsMaskMatch := by
  unfold Obligations.DecodeAcceptsMaskMatch
  intro v h p
  constructor
  · rintro ⟨i, hdec⟩
    obtain ⟨r, hr, hop, hrsv, hunused, htakes, _⟩ := decode_eq_ok_iff.mp hdec
    exact ⟨r, hr, (and_mask_eq_matchWord_iff hr h).mpr ⟨hop, hrsv, hunused⟩, htakes⟩
  · rintro ⟨r, hr, hmatch, htakes⟩
    obtain ⟨hop, hrsv, hunused⟩ := (and_mask_eq_matchWord_iff hr h).mp hmatch
    exact ⟨r.make h p, decode_eq_ok_iff.mpr ⟨r, hr, hop, hrsv, hunused, htakes, rfl⟩⟩

/-! ## Encoding what was decoded (R72, R73) -/

/-- Row by row: the command is encoded with the row's opcode and the operand fields it was made of, where the fields
the row's format does not use are zero. -/
theorem encodeHeader_make (h : Word) (p : List Word) : ∀ r ∈ opcodeTable, r.format.unusedZero h = true →
    encodeHeader (r.make h p) = mkHeader r.op (chField h) (idxField h) (fField h) := by
  simp +contextual [opcodeTable, opRowsLow, opRowsMid, opRowsHigh, encodeHeader, CmdFormat.unusedZero,
    CmdFormat.usesCh, CmdFormat.usesIdx, CmdFormat.usesF]

/-- Row by row: the command is encoded with the payload it was made of, where the row's format allows its length (R75). -/
theorem encodePayload_make {v : Option Nat} (h : Word) (p : List Word) :
    ∀ r ∈ opcodeTable, r.format.takes v p.length = true → encodePayload (r.make h p) = p := by
  have hone : p.length = 1 → [p.head?.getD 0#64] = p := by
    intro hp
    obtain ⟨x, rfl⟩ := List.length_eq_one_iff.mp hp
    rfl
  simpa [opcodeTable, opRowsLow, opRowsMid, opRowsHigh, encodePayload, CmdFormat.takes, CmdFormat.payloadCount]
    using hone

/-- Settles O2: an accepted header is built from its five fields, and encoding the command writes those again. -/
theorem encodeOfDecode : Obligations.EncodeOfDecode := by
  unfold Obligations.EncodeOfDecode
  intro v h p i hdec
  obtain ⟨r, hr, hop, hrsv, hunused, htakes, rfl⟩ := decode_eq_ok_iff.mp hdec
  refine ⟨?_, encodePayload_make h p r hr htakes⟩
  rw [encodeHeader_make h p r hr hunused, ← hop, mkHeader_fields h hrsv]

/-! ## Decoding what was encoded (R72 to R75) -/

/-- A header built from a row's opcode and operands that fit, none in a field the row's format does not use, decodes to
the command the row makes of them. -/
theorem decode_mkHeader {v : Option Nat} {op ch idx : Nat} {f : Bool} {p : List Word} {r : OpRow} {i : Instr}
    (hrow : rowOf op = some r) (hch : ch < 256) (hidx : idx < 65536)
    (hunused : ((r.format.usesCh || ch == 0) && (r.format.usesIdx || idx == 0) && (r.format.usesF || !f)) = true)
    (htakes : r.format.takes v p.length = true)
    (hmake : ∀ h, chField h = ch → idxField h = idx → fField h = f → r.make h p = i) :
    decode v (mkHeader op ch idx f) p = .ok i := by
  obtain ⟨hr, rfl⟩ := mem_and_op_eq_of_rowOf hrow
  obtain ⟨hop', hch', hidx', hf', hrsv⟩ := fields_mkHeader r.op ch idx f (opcodeTable_op_lt r hr) hch hidx
  refine decode_eq_ok_iff.mpr ⟨r, hr, hop', hrsv, ?_, htakes, hmake _ hch' hidx' hf'⟩
  rwa [CmdFormat.unusedZero, hch', hidx', hf']

/-- Settles O1, format by format: the row of the encoded opcode makes the command of the operands the encoder wrote. -/
theorem decodeOfEncode : Obligations.DecodeOfEncode := by
  unfold Obligations.DecodeOfEncode
  intro i v hwf hlen
  cases i with
  | reset | firrst | getfirn | iirrsta | getsoss | getsosn | getena | enrsta | gethit | gethitch | clrhit | detrst
  | adds | setch | settf =>
    exact decode_mkHeader rfl (by decide) (by decide) rfl rfl fun _ _ _ _ => rfl
  | init | getfirc =>
    exact decode_mkHeader rfl (by decide) (of_decide_eq_true hwf) rfl rfl fun _ _ hidx _ => hidx ▸ rfl
  | iirrst | geten | iirp | enupd =>
    exact decode_mkHeader rfl (of_decide_eq_true hwf) (by decide) rfl rfl fun _ hch _ _ => hch ▸ rfl
  | getsosc c j =>
    obtain ⟨hc, hj⟩ := Bool.and_eq_true_iff.mp hwf
    exact decode_mkHeader rfl (of_decide_eq_true hc) (of_decide_eq_true hj) rfl rfl fun _ hch hidx _ =>
      hch ▸ hidx ▸ rfl
  | firp | ign =>
    exact decode_mkHeader rfl (by decide) (by decide) rfl rfl fun _ _ _ hf => hf ▸ rfl
  | chk ev =>
    have htakes : CmdFormat.takes v ev.length .e = true := by
      obtain rfl | rfl := hlen ev rfl
      · rfl
      · exact beq_self_eq_true ev.length
    exact decode_mkHeader rfl (by decide) (by decide) rfl htakes fun _ _ _ _ => rfl

end Sys2Proof

namespace Sys2Proof.Machine

/-! ## Every step goes on (R79, R190, R233) -/

theorem Effect.port_eq {s u : State} {i : Instr} (heffect : Effect s i u) : u.port = s.port := by
  cases heffect <;> rfl

theorem Effect.hwresets_eq {s u : State} {i : Instr} (heffect : Effect s i u) : u.hwresets = s.hwresets := by
  cases heffect <;> rfl

/-- Every command in every state goes on with a response, and touches neither the port nor the parameters. -/
theorem exec_answered (i : Instr) (s : State) : ∃ t r, exec i s = .next t ∧ t.resp = some r ∧ t.port = s.port ∧
    t.cfg = s.cfg ∧ t.hwresets = s.hwresets := by
  obtain ⟨u, r, heffect, hnext⟩ := answers_exec i s
  exact ⟨_, r, hnext, rfl, heffect.port_eq, heffect.cfg_eq, heffect.hwresets_eq⟩

theorem step_nil {s : State} (hport : s.port = []) : step s = .next s := by
  simp [step, hport]

theorem step_hwReset {s : State} {rest : List PortEvent} (hport : s.port = .hwReset :: rest) :
    step s = .next (hwReset (takePort s)) := by
  simp [step, hport]

theorem step_illegal {s : State} {h : Word} {p : List Word} {rest : List PortEvent} {e : Illegal}
    (hport : s.port = .command h p :: rest) (hdec : decode (vecLen s) h p = .error e) :
    step s = .next { takePort s with resp := some (errorResponse .errIllegal) } := by
  simp [step, hport, hdec, answerIllegal, raise_next]

/-- Settles O13: a command is answered with its effect, and a step takes at most the event at the head of the port. -/
theorem everyCommandAnswered : Obligations.EveryCommandAnswered := by
  unfold Obligations.EveryCommandAnswered
  refine ⟨exec_answered, fun s => ?_⟩
  cases hport : s.port with
  | nil => exact ⟨s, step_nil hport, hport, rfl⟩
  | cons event rest =>
    have htail : (takePort s).port = rest := by rw [takePort_port, hport, List.tail_cons]
    cases event with
    | hwReset => exact ⟨_, step_hwReset hport, htail, rfl⟩
    | command h p =>
      cases hdec : decode (vecLen s) h p with
      | error e => exact ⟨_, step_illegal hport hdec, htail, rfl⟩
      | ok i =>
        obtain ⟨t, _, hexec, _, hkept, hcfg, _⟩ := exec_answered i (takePort s)
        exact ⟨t, (step_command hport hdec).trans hexec, hkept.trans htail, hcfg⟩

/-- Settles O8: the refusal leaves the state with the transaction taken, and nothing else changed. -/
theorem illegalTransactionRefused : Obligations.IllegalTransactionRefused := by
  unfold Obligations.IllegalTransactionRefused
  intro s h p rest e hport hdec
  rw [step_illegal hport hdec, takePort_of_port hport]

/-! ## The worked encodings (R83) -/

/-- A well-formed command is what the words it is encoded with decode to; the length of a CHK is that of its payload. -/
theorem decode_of_encode_eq {i : Instr} {v : Option Nat} {ws : List Word} (hencode : encode i = ws)
    (hwf : i.wellFormed = true) (hlen : i = .chk ws.tail → v = some ws.tail.length) :
    (decode v (ws.headD 0#64) ws.tail).toOption = some i := by
  subst hencode
  have hdec : decode v (encodeHeader i) (encodePayload i) = .ok i := by
    refine decodeOfEncode i v hwf fun ev hev => ?_
    subst hev
    exact .inr (hlen rfl)
  exact congrArg Except.toOption hdec

theorem b64Enc_worked_values :
    b64Enc (.rat (1 / 2)) = 0x3FE0000000000000#64 ∧ b64Enc (.rat 1) = 0x3FF0000000000000#64 ∧
    b64Enc (.rat (-1)) = 0xBFF0000000000000#64 ∧ b64Enc (.rat 2) = 0x4000000000000000#64 ∧
    b64Enc (.rat 57) = 0x404C800000000000#64 := by decide +kernel

/-- Settles O3: the words of each command are computed, and they decode to the command because it is well-formed. -/
theorem workedEncodings : Obligations.WorkedEncodings := by
  unfold Obligations.WorkedEncodings
  obtain ⟨hhalf, hone, hminus, htwo, h57⟩ := b64Enc_worked_values
  rw [hhalf, hone, hminus, htwo, h57]
  refine ⟨fun x hx => ?_, rfl, rfl, rfl, rfl, rfl⟩
  have hworked : encode x.1 = x.2 ∧ x.1.wellFormed = true ∧ (x.1 = .chk x.2.tail → some 2 = some x.2.tail.length) := by
    revert x
    decide
  obtain ⟨hencode, hwf, hlen⟩ := hworked
  exact ⟨hencode, decode_of_encode_eq hencode hwf hlen⟩

end Sys2Proof.Machine

namespace Sys2Proof.Machine

/-! ## The delay line (R102 to R107) -/

@[simp] theorem DelayLine.capacity_foldl_save (d : DelayLine) (vs : List NumVal) :
    (vs.foldl DelayLine.save d).capacity = d.capacity := by
  induction vs generalizing d with
  | nil => rfl
  | cons v vs ih => rw [List.foldl_cons, ih, DelayLine.capacity_save]

/-- After any saves a line reads the saved values, newest first, and then what it held before. -/
theorem DelayLine.read_foldl_save (z : NumVal) (d : DelayLine) (vs : List NumVal) {k : Nat} (hk : k < d.capacity) :
    (vs.foldl DelayLine.save d).read z k = (vs.reverse ++ d.hist).getD k z := by
  induction vs using List.reverseRecOn generalizing k with
  | nil => rfl
  | append_singleton vs v ih =>
    rw [List.foldl_concat, List.reverse_concat, List.cons_append]
    cases k with
    | zero => rw [DelayLine.read_save_zero _ _ _ (by simpa using hk), List.getD_cons_zero]
    | succ k =>
      rw [DelayLine.read_save_succ _ _ _ _ (by simpa using hk), List.getD_cons_succ, ih (Nat.lt_of_succ_lt hk)]

/-- Settles O28: below the capacity the saved values, newest first, stand before the old history; at or above it a read
gives zero, and a reset line is a created one. -/
theorem delayLineHistory : Obligations.DelayLineHistory := by
  unfold Obligations.DelayLineHistory
  intro zero d vs k
  refine ⟨fun hk hsaved => ?saved, fun hk hold => ?held, fun hbeyond => ?beyond, ?afterReset,
    DelayLine.capacity_foldl_save d vs, DelayLine.capacity_reset zero d⟩
  case saved =>
    rw [DelayLine.read_foldl_save zero d vs hk, List.getD_append _ _ _ _ (by simpa using hsaved),
      List.getD_reverse k hsaved]
  case held =>
    rw [DelayLine.read_foldl_save zero d vs hk, List.getD_append_right _ _ _ _ (by simpa using hold),
      List.length_reverse, DelayLine.read]
  case beyond => exact DelayLine.read_beyond zero _ k (by simpa using hbeyond)
  case afterReset => rw [DelayLine.reset_eq_create, DelayLine.read_create]

end Sys2Proof.Machine

namespace Sys2Proof.Machine

/-! ## The FIR Decimator (R111 to R118) -/

/-- A line created at `z` reads the saved values, newest first, and `z` beyond them. -/
theorem DelayLine.read_foldl_save_create (z : NumVal) (vs : List NumVal) {n k : Nat} (hk : k < n) :
    (vs.foldl DelayLine.save (DelayLine.create z n)).read z k = vs.reverse.getD k z := by
  rw [DelayLine.read_foldl_save z _ vs (by simpa using hk)]
  rcases Nat.lt_or_ge k vs.reverse.length with hsaved | hold
  · rw [List.getD_append _ _ _ _ hsaved]
  · rw [List.getD_append_right _ _ _ _ hold, List.getD_eq_default _ _ hold]
    exact DelayLine.read_create z n _

/-- The output of tick `i` is the convolution over the history that the samples up to `i` leave. -/
theorem firOutputs_getElem? (xs : List NumVal) (s : State) {i : Nat} (hi : i < xs.length) :
    (firOutputs xs s)[i]? = some (firConvolve s ((xs.take (i + 1)).foldl DelayLine.save s.firh)) := by
  induction xs generalizing s i with
  | nil => exact absurd hi (Nat.not_lt_zero i)
  | cons x xs ih =>
    cases i with
    | zero => rfl
    | succ i => exact ih (firProcess x true s).2 (Nat.lt_of_succ_lt_succ hi)

/-- In `NUM_EXACT` nothing is rounded: the convolution is the sum of the products. -/
theorem firConvolve_exact {s : State} (hx : s.cfg.num = .exact) (line : DelayLine) :
    firConvolve s line = .rat (∑ k ∈ Finset.range s.cfg.firTaps,
      (readFirc s k).toRat * (line.read (.rat 0) k).toRat) := by
  unfold firConvolve
  rw [State.num_exact hx]
  induction s.cfg.firTaps with
  | zero => rfl
  | succ n ih =>
    rw [List.range_succ, List.foldl_concat, ih, Finset.sum_range_succ]
    rfl

/-- R118's linear filter: from a zeroed history the output of tick `i` sums each coefficient times the sample as many
ticks before, a sample before the first being zero. -/
theorem firOutputs_exact {s : State} (hx : s.cfg.num = .exact)
    (hzero : s.firh = DelayLine.create (.rat 0) s.cfg.firTaps) {xs : List NumVal} {i : Nat} (hi : i < xs.length) :
    (firOutputs xs s)[i]? = some (.rat (∑ k ∈ Finset.range s.cfg.firTaps,
      (readFirc s k).toRat * ((xs.take (i + 1)).reverse.getD k (.rat 0)).toRat)) := by
  rw [firOutputs_getElem? xs s hi, firConvolve_exact hx, hzero]
  refine congrArg (some <| NumVal.rat ·) (Finset.sum_congr rfl fun k hk => ?_)
  rw [DelayLine.read_foldl_save_create _ _ (Finset.mem_range.mp hk)]

/-- The history after tick `i` of a unit impulse: the impulse has the age `i`. -/
theorem toRat_getD_impulse {n i : Nat} (hi : i ≤ n) (k : Nat) :
    (((NumVal.rat 1 :: List.replicate n (.rat 0)).take (i + 1)).reverse.getD k (.rat 0)).toRat =
      if k = i then 1 else 0 := by
  rw [List.take_succ_cons, List.take_replicate, Nat.min_eq_left hi, List.reverse_cons, List.reverse_replicate]
  rcases Nat.lt_trichotomy k i with hlt | rfl | hgt
  · rw [List.getD_append _ _ _ _ (by simpa using hlt), if_neg hlt.ne, List.getD_replicate _ hlt]
    rfl
  · rw [List.getD_append_right _ _ _ _ (by simp), if_pos rfl]
    simp [NumVal.toRat]
  · rw [List.getD_eq_default _ _ (by simpa using hgt), if_neg hgt.ne']
    rfl

/-- The history after tick `i` of a constant 1.0: the ages up to `i` hold it. -/
theorem toRat_getD_constant {n i : Nat} (hi : i < n) (k : Nat) :
    (((List.replicate n (NumVal.rat 1)).take (i + 1)).reverse.getD k (.rat 0)).toRat =
      if k < i + 1 then 1 else 0 := by
  rw [List.take_replicate, Nat.min_eq_left hi, List.reverse_replicate]
  split
  case isTrue hk => rw [List.getD_replicate _ hk]; rfl
  case isFalse hk => rw [List.getD_eq_default _ _ (by simpa using hk)]; rfl

/-- Settles O26: of the products of tick `i` only that of coefficient `i` is not zero, and there is none from T on. -/
theorem firImpulseResponse : Obligations.FirImpulseResponse := by
  unfold Obligations.FirImpulseResponse
  intro s n i hx _ hzero hi
  rw [firOutputs_exact hx hzero (by simpa using hi)]
  simp only [toRat_getD_impulse hi, mul_ite, mul_one, mul_zero, Finset.sum_ite_eq', Finset.mem_range]

/-- Settles O27: the products of tick `i` are the coefficients up to `i`, as many as there are. -/
theorem firStepResponse : Obligations.FirStepResponse := by
  unfold Obligations.FirStepResponse
  intro s n i hx _ hzero hi
  rw [firOutputs_exact hx hzero (by simpa using hi)]
  have htaps : {k ∈ Finset.range s.cfg.firTaps | k < i + 1} = Finset.range (min (i + 1) s.cfg.firTaps) := by
    ext k
    simp [and_comm]
  simp only [toRat_getD_constant hi, mul_ite, mul_one, mul_zero, ← Finset.sum_filter, htaps]
  rfl

/-- Settles O24: behind the `INITD` check, FIRP answers what `FIR.process` gives. -/
theorem firpCommand : Obligations.FirpCommand := by
  unfold Obligations.FirpCommand
  intro x run s
  exact ⟨fun hinitd => whenInit_true s _ hinitd, fun hinitd => uninitialisedRefused _ s hinitd nofun⟩

/-- GETFIRC of an initialised block answers a coefficient of the table and refuses an index beyond it (R114). -/
theorem exec_getfirc {s : State} (hinitd : s.initd = true) (i : Nat) :
    exec (.getfirc i) s =
      if i < s.cfg.firTaps then respondNums [readFirc s i] s else raise .errRange s := by
  refine (whenInit_true s _ hinitd).trans ?_
  simp only [tapInRange, decide_eq_true_eq]

/-- Settles O25, command by command behind the `INITD` check. -/
theorem firResetAndAccessors : Obligations.FirResetAndAccessors := by
  unfold Obligations.FirResetAndAccessors
  intro s
  refine ⟨fun hinitd => ⟨whenInit_true s _ hinitd, fun i hi => ?inRange, fun i hi => ?beyond,
    whenInit_true s _ hinitd⟩, fun hinitd i hi => ?uninit, fun hinitd k => uninitialisedRefused _ s hinitd nofun⟩
  case inRange => rw [exec_getfirc hinitd, if_pos hi]; rfl
  case beyond => rw [exec_getfirc hinitd, if_neg (Nat.not_lt.mpr hi), raise_next]
  case uninit => exact uninitialisedRefused i s hinitd (by rintro n rfl; simp at hi)

end Sys2Proof.Machine

namespace Sys2Proof.Machine

/-! ## The IIR Channel Bank (R121 to R131) -/

/-- Settles O29: the model's section is R121's equation, term by term. -/
theorem sectionDifferenceEquation : Obligations.SectionDifferenceEquation := by
  unfold Obligations.SectionDifferenceEquation
  intro N q h x
  rfl

/-! ### A command's check of its operand -/

/-- Behind the `INITD` check, a command whose operand check passes ends as its body does. -/
theorem whenInit_guard_true {s : State} {g : Bool} {body : Result} {st : Status} (hinitd : s.initd = true)
    (hg : g = true) : whenInit s (if g then body else raise st s) = body := by
  rw [whenInit_true s _ hinitd, if_pos hg]

/-- Behind the `INITD` check, a command whose operand check fails writes the refusal alone. -/
theorem whenInit_guard_false {s : State} {g : Bool} {body : Result} {st : Status} (hinitd : s.initd = true)
    (hg : g = false) :
    whenInit s (if g then body else raise st s) = .next { s with resp := some (errorResponse st) } := by
  rw [whenInit_true s _ hinitd, hg, if_neg Bool.false_ne_true, raise_next]

/-! ### The stores of a channel in use -/

/-- A channel in use has its entry in the store, with S sections of two lines of capacity 2 (R30). -/
theorem iirOf_sized {s : State} {c : Nat} (hregs : regsValid s.cfg s.toRegs = true) (hc : c < s.nch) :
    c < s.iir.length ∧ (iirOf s c).length = s.cfg.iirSections ∧ (iirOf s c).all sectionSized = true := by
  obtain ⟨_, ⟨hlen, hrows⟩, _⟩ := (regsValid_iff _ _).mp hregs
  have hlt : c < s.iir.length := hlen ▸ hc
  exact ⟨hlt, hrows _ (getD_mem hlt)⟩

/-- R8's bounds give `SOS_COEF` NCH_MAX rows of S tuples. -/
theorem configValid_sosCoef {k : Config} (h : configValid k = true) :
    k.sosCoef.length = k.nchMax ∧ ∀ row ∈ k.sosCoef, row.length = k.iirSections := by
  simp only [configValid, Bool.and_eq_true, decide_eq_true_eq, List.all_eq_true] at h
  obtain ⟨⟨⟨⟨⟨⟨_, hlen⟩, hrows⟩, _⟩, _⟩, _⟩, _⟩ := h
  exact ⟨hlen, fun row hrow => (hrows row hrow).1⟩

/-- A channel in use has as many coefficient tuples as sections (R8, R120). -/
theorem sosRow_length {s : State} {c : Nat} (hk : configValid s.cfg = true)
    (hregs : regsValid s.cfg s.toRegs = true) (hc : c < s.nch) : (sosRow s c).length = s.cfg.iirSections := by
  obtain ⟨⟨_, hmax, _⟩, _⟩ := (regsValid_iff _ _).mp hregs
  obtain ⟨hlen, hrows⟩ := configValid_sosCoef hk
  exact hrows _ (getD_mem (by omega))

/-! ### The series of sections (R122, R123) -/

/-- One section's turn in the series: its output goes on, its new histories join those of the sections before. -/
def sectionTurn (N : NumOps) (acc : NumVal × List IirSection) (qh : Sos × IirSection) : NumVal × List IirSection :=
  ((sosStep N qh.1 qh.2 acc.1).1, acc.2 ++ [(sosStep N qh.1 qh.2 acc.1).2])

/-- Where every section has its tuple, the cascade is the fold of the turns over the sections in ascending order. -/
theorem foldl_sectionTurn_eq_cascade (N : NumOps) {qs : List Sos} {hs : List IirSection}
    (hlen : hs.length ≤ qs.length) (v : NumVal) (moved : List IirSection) :
    (qs.zip hs).foldl (sectionTurn N) (v, moved) = ((cascade N qs hs v).1, moved ++ (cascade N qs hs v).2) := by
  induction hs generalizing qs v moved with
  | nil => cases qs <;> simp [cascade]
  | cons h hs ih =>
    cases qs with
    | nil => exact absurd hlen (Nat.not_succ_le_zero _)
    | cons q qs =>
      rw [List.zip_cons_cons, List.foldl_cons, sectionTurn, ih (Nat.le_of_succ_le_succ hlen), List.append_assoc]
      rfl

/-- Settles O30: the channel's cascade is the statement's fold, and the two checks refuse as R123 says. -/
theorem iirpCommand : Obligations.IirpCommand := by
  unfold Obligations.IirpCommand
  intro c x s
  refine ⟨?inUse, fun hinitd hc => whenInit_guard_false hinitd (decide_eq_false hc.not_gt),
    fun hinitd => uninitialisedRefused _ s hinitd nofun⟩
  case inUse =>
    intro hinitd hwf hc r
    obtain ⟨hk, hregs⟩ := wf_initd hwf hinitd
    obtain ⟨_, hlen, _⟩ := iirOf_sized hregs hc
    have hle : (iirOf s c).length ≤ (sosRow s c).length := (hlen.trans (sosRow_length hk hregs hc).symm).le
    have hr : r = cascade s.num (sosRow s c) (iirOf s c) (s.num.dec x) :=
      foldl_sectionTurn_eq_cascade s.num hle (s.num.dec x) []
    rw [hr]
    exact whenInit_guard_true hinitd (decide_eq_true hc)

/-! ### Resets (R124, R125) -/

/-- The reset sections of a channel in use are those INIT creates. -/
theorem map_sectionReset_iirOf {s : State} {c : Nat} (hregs : regsValid s.cfg s.toRegs = true) (hc : c < s.nch) :
    (iirOf s c).map (sectionReset s.num.zero) = List.replicate s.cfg.iirSections (zeroSection s.num.zero) := by
  obtain ⟨_, hlen, hsized⟩ := iirOf_sized hregs hc
  rw [← hlen, List.map_eq_replicate_iff]
  intro h hh
  have hcap := List.all_eq_true.mp hsized h hh
  simp only [sectionSized, Bool.and_eq_true, decide_eq_true_eq] at hcap
  obtain ⟨hx, hy⟩ := hcap
  rw [sectionReset, DelayLine.reset_eq_create, DelayLine.reset_eq_create, hx, hy, zeroSection]

/-- The loop of IIRRSTA leaves every channel's sections as INIT creates them, and writes nothing else. -/
theorem forChannels_iirReset_eq {s : State} (hregs : regsValid s.cfg s.toRegs = true) :
    forChannels s.nch iirReset s =
      { s with iir := List.replicate s.nch (List.replicate s.cfg.iirSections (zeroSection s.num.zero)) } := by
  obtain ⟨_, ⟨hlen, _⟩, _⟩ := (regsValid_iff _ _).mp hregs
  obtain ⟨hframe, hsize, hreset⟩ := forChannels_iirReset s.nch s hlen.ge
  rw [hframe]
  congr 2
  refine eq_replicate_of_getD _ _ _ [] (hsize.trans hlen) fun c hc => ?_
  exact (hreset c).trans ((if_pos hc).trans (map_sectionReset_iirOf hregs hc))

/-- Settles O31, command by command behind the two checks. -/
theorem iirResetCommands : Obligations.IirResetCommands := by
  unfold Obligations.IirResetCommands
  intro s
  refine ⟨fun hinitd hwf => ⟨fun c hc => ?one, ?every⟩,
    fun hinitd c hc => whenInit_guard_false hinitd (decide_eq_false hc.not_gt),
    fun hinitd => ⟨uninitialisedRefused _ s hinitd nofun, fun c => uninitialisedRefused _ s hinitd nofun⟩⟩
  case one =>
    refine (whenInit_guard_true hinitd (decide_eq_true hc)).trans ?_
    rw [iirReset, map_sectionReset_iirOf (wf_initd hwf hinitd).2 hc]
    rfl
  case every =>
    refine (whenInit_true s _ hinitd).trans ?_
    rw [forChannels_iirReset_eq (wf_initd hwf hinitd).2]
    rfl

/-! ### The accessors (R126 to R128) -/

/-- The index `5k + m` reads component `m` of section `k` (R51). -/
theorem readSosc_section (s : State) (c k : Nat) {m : Nat} (hm : m < 5) :
    readSosc s c (5 * k + m) = sosComponent ((sosRow s c).getD k (sosZero s.num.zero)) m := by
  rw [readSosc, Nat.mul_add_div (by decide), Nat.div_eq_of_lt hm, Nat.mul_add_mod, Nat.mod_eq_of_lt hm, Nat.add_zero]

/-- Settles O32; the five indices of a section are `5k + m` for `m` below 5. -/
theorem iirAccessors : Obligations.IirAccessors := by
  unfold Obligations.IirAccessors
  intro s
  refine ⟨fun hinitd => ⟨?component, fun c j hout => ?beyond, whenInit_true s _ hinitd,
    whenInit_true s _ hinitd⟩, fun hinitd => ⟨fun c j => uninitialisedRefused _ s hinitd nofun,
    uninitialisedRefused _ s hinitd nofun, uninitialisedRefused _ s hinitd nofun⟩⟩
  case component =>
    intro c k hc hk q jv hjv
    change jv ∈ (List.range 5).map fun m => (5 * k + m, sosComponent q m) at hjv
    obtain ⟨m, hm, rfl⟩ := List.mem_map.mp hjv
    have hm5 : m < 5 := List.mem_range.mp hm
    have hindex : 5 * k + m < 5 * s.cfg.iirSections := by omega
    refine (whenInit_guard_true hinitd ?_).trans ?_
    · exact Bool.and_eq_true_iff.mpr ⟨decide_eq_true hc, decide_eq_true hindex⟩
    · rw [readSosc_section s c k hm5]
      rfl
  case beyond =>
    refine whenInit_guard_false hinitd (Bool.and_eq_false_iff.mpr ?_)
    exact hout.imp (fun h => decide_eq_false h.not_gt) fun h => decide_eq_false h.not_gt

/-! ### Independence of the channels (R130) -/

/-- A call on channel `c` does not change what another channel's sections make of an input. -/
theorem cascade_iirProcess_other {c d : Nat} (hdc : d ≠ c) (x y : NumVal) (s : State) :
    cascade (iirProcess c x s).2.num (sosRow (iirProcess c x s).2 d) (iirOf (iirProcess c x s).2 d) y =
      cascade s.num (sosRow s d) (iirOf s d) y := by
  rw [iirOf_iirProcess, if_neg fun h => hdc h.1]
  rfl

/-- Two calls on different channels write two different entries, each with what its channel makes alone. -/
theorem iirProcess_iirProcess_other {c d : Nat} (hdc : d ≠ c) (x y : NumVal) (s : State) :
    iirProcess d y (iirProcess c x s).2 = ((iirProcess d y s).1, { s with
      iir := (s.iir.set c (cascade s.num (sosRow s c) (iirOf s c) x).2).set d
        (cascade s.num (sosRow s d) (iirOf s d) y).2 }) := by
  rw [iirProcess, cascade_iirProcess_other hdc]
  rfl

/-- Settles O33: a call on one channel leaves the others' entries, and writes of different entries commute. -/
theorem iirChannelsIndependent : Obligations.IirChannelsIndependent := by
  unfold Obligations.IirChannelsIndependent
  intro s c d x y hcd
  rw [iirProcess_iirProcess_other hcd.symm, iirProcess_iirProcess_other hcd, iirOf_iirProcess, iirOf_iirReset,
    if_neg fun h => hcd h.1.symm, if_neg fun h => hcd h.1.symm, List.set_comm _ _ hcd]
  exact ⟨rfl, rfl, rfl, rfl, rfl⟩

/-! ### Zeros in, zeros out (R131 (b)) -/

/-- A line that holds `z` everywhere still does after `z` is saved. -/
theorem DelayLine.save_create (z : NumVal) (n : Nat) : (DelayLine.create z n).save z = DelayLine.create z n := by
  simp [DelayLine.create, DelayLine.save, ← List.replicate_succ]

/-- In `NUM_EXACT` a zeroed section answers zero with zero and stays zeroed, whatever its coefficients. -/
theorem sosStep_zeroSection (q : Sos) :
    sosStep numExact q (zeroSection (.rat 0)) (.rat 0) = (.rat 0, zeroSection (.rat 0)) := by
  simp [sosStep, zeroSection, numExact, NumVal.toRat, DelayLine.save_create]

theorem cascade_zeroSection (qs : List Sos) (n : Nat) :
    cascade numExact qs (List.replicate n (zeroSection (.rat 0))) (.rat 0) =
      (.rat 0, List.replicate n (zeroSection (.rat 0))) := by
  induction qs generalizing n with
  | nil => rfl
  | cons q qs ih =>
    cases n with
    | zero => rfl
    | succ n => rw [List.replicate_succ, cascade, sosStep_zeroSection, ih]

/-- Writing a channel's own sections back changes nothing; outside the store nothing is written. -/
theorem set_iirOf_self (s : State) (c : Nat) : s.iir.set c (iirOf s c) = s.iir := by
  rcases Nat.lt_or_ge c s.iir.length with hc | hc
  · rw [iirOf, List.getD_eq_getElem _ _ hc, List.set_getElem_self]
  · exact List.set_eq_of_length_le hc

/-- A zero changes nothing in a zeroed channel. -/
theorem iirProcess_zero {s : State} {c n : Nat} (hx : s.cfg.num = .exact)
    (hzero : iirOf s c = List.replicate n (zeroSection (.rat 0))) : iirProcess c (.rat 0) s = (.rat 0, s) := by
  rw [iirProcess, State.num_exact hx, hzero, cascade_zeroSection, ← hzero, set_iirOf_self]

theorem iirOutputs_zeros {s : State} {c : Nat} (hstep : iirProcess c (.rat 0) s = (.rat 0, s)) (n : Nat) :
    iirOutputs c (List.replicate n (.rat 0)) s = (List.replicate n (.rat 0), s) := by
  induction n with
  | zero => rfl
  | succ n ih => rw [List.replicate_succ, iirOutputs, hstep, ih]

/-- Settles O34: a zeroed channel is a fixed point of the zero input. -/
theorem iirZeroStream : Obligations.IirZeroStream := by
  unfold Obligations.IirZeroStream
  intro s c n hx _ _ _ hzero
  rw [iirOutputs_zeros (iirProcess_zero hx hzero)]

end Sys2Proof.Machine

namespace Sys2Proof.Machine

/-! ## The Energy Estimator (R136 to R144) -/

/-! ### The stores of a channel in use, and the commands on them -/

/-- A channel in use has its entry in each energy store, and its window has capacity W (R22, R31). -/
theorem energyStores_sized {s : State} {c : Nat} (hregs : regsValid s.cfg s.toRegs = true) (hc : c < s.nch) :
    c < s.enw.length ∧ c < s.ensum.length ∧ (enwOf s c).capacity = s.cfg.energyWindow := by
  obtain ⟨_, _, ⟨henw, hcap, hensum⟩, _⟩ := (regsValid_iff _ _).mp hregs
  have hlt : c < s.enw.length := henw ▸ hc
  exact ⟨hlt, hensum ▸ hc, hcap _ (getD_mem hlt)⟩

/-- Settles O35: behind the two checks ENUPD answers what `EN.update` gives. -/
theorem enupdCommand : Obligations.EnupdCommand := by
  unfold Obligations.EnupdCommand
  intro c x s
  exact ⟨fun hinitd hc => whenInit_guard_true hinitd (decide_eq_true hc),
    fun hinitd hc => whenInit_guard_false hinitd (decide_eq_false hc.not_gt),
    fun hinitd => uninitialisedRefused _ s hinitd nofun⟩

/-- Reading the energies of all channels in use in turn gives the whole store. -/
theorem map_ensumOf_range {s : State} (hlen : s.ensum.length = s.nch) :
    (List.range s.nch).map (ensumOf s) = s.ensum := by
  refine List.ext_getElem (by simp [hlen]) fun c _ hc => ?_
  rw [List.getElem_map, List.getElem_range, ensumOf, List.getD_eq_getElem _ _ hc]

/-- Settles O36, command by command behind the checks. -/
theorem energyReads : Obligations.EnergyReads := by
  unfold Obligations.EnergyReads
  intro s
  refine ⟨fun hinitd hwf => ⟨fun c hc => whenInit_guard_true hinitd (decide_eq_true hc), ?every⟩,
    fun hinitd c hc => whenInit_guard_false hinitd (decide_eq_false hc.not_gt),
    fun hinitd => ⟨uninitialisedRefused _ s hinitd nofun, fun c => uninitialisedRefused _ s hinitd nofun⟩⟩
  case every =>
    obtain ⟨_, _, ⟨_, _, hlen⟩, _⟩ := (regsValid_iff _ _).mp (wf_initd hwf hinitd).2
    refine (whenInit_true s _ hinitd).trans ?_
    rw [map_ensumOf_range hlen]
    rfl

/-- The loop of ENRSTA leaves every window and every energy as INIT creates them, and writes nothing else. -/
theorem forChannels_enReset_eq {s : State} (hregs : regsValid s.cfg s.toRegs = true) :
    forChannels s.nch enReset s = { s with
      enw := List.replicate s.nch (DelayLine.create s.num.zero s.cfg.energyWindow)
      ensum := List.replicate s.nch s.num.zero } := by
  obtain ⟨_, _, ⟨henw, _, hensum⟩, _⟩ := (regsValid_iff _ _).mp hregs
  obtain ⟨hframe, hwindows, hsums, hreset⟩ := forChannels_enReset s.nch s henw.ge hensum.ge
  rw [hframe]
  congr 2
  · refine eq_replicate_of_getD _ _ _ ⟨[]⟩ (hwindows.trans henw) fun c hc => ?_
    refine (hreset c).1.trans ((if_pos hc).trans ?_)
    rw [DelayLine.reset_eq_create, (energyStores_sized hregs hc).2.2]
  · refine eq_replicate_of_getD _ _ _ (forChannels s.nch enReset s).num.zero (hsums.trans hensum) fun c hc => ?_
    exact (hreset c).2.trans (if_pos hc)

/-- Settles O37: the loop's result, behind the `INITD` check. -/
theorem enrstaCommand : Obligations.EnrstaCommand := by
  unfold Obligations.EnrstaCommand
  refine fun s => ⟨fun hinitd hwf => ?_, fun hinitd => uninitialisedRefused _ s hinitd nofun⟩
  refine (whenInit_true s _ hinitd).trans ?_
  rw [forChannels_enReset_eq (wf_initd hwf hinitd).2]
  rfl

/-! ### Between decimation ticks (R143) -/

/-- A tick of ADDS that answers false writes no window and no energy. -/
theorem addSample_energy_of_false {x : NumVal} {s : State} (hrun : (addSample x s).1 = false) :
    (addSample x s).2.ensum = s.ensum ∧ (addSample x s).2.enw = s.enw := by
  rw [addSample_hold (of_decide_eq_false hrun)]
  exact ⟨rfl, rfl⟩

/-- Settles O42: of the commands that write an energy store (R38), INIT has no effect on an initialised block, and the
tick of ADDS writes none where it answers false. -/
theorem energyStableBetweenTicks : Obligations.EnergyStableBetweenTicks := by
  unfold Obligations.EnergyStableBetweenTicks
  intro i s t hinitd hexec henupd henrsta hreset hadds
  by_contra hchanged
  obtain ⟨u, _, heffect, rfl⟩ := effect_of_exec hexec
  have hwrites : u.enw ≠ s.enw ∨ u.ensum ≠ s.ensum := (not_and_or.mp hchanged).symm
  obtain ⟨n, rfl⟩ | rfl | ⟨x, rfl⟩ | ⟨c, x, rfl⟩ | rfl := heffect.energy_writer hwrites
  · cases heffect with
    | nothing => exact hchanged ⟨rfl, rfl⟩
    | init _ huninit => exact absurd (huninit.symm.trans hinitd) Bool.false_ne_true
  · exact hreset rfl
  · obtain ⟨r, hresp, hfalse⟩ := hadds x rfl
    rw [Host.Outcome.next.inj (hexec.symm.trans (whenInit_true s _ hinitd))] at hresp hchanged
    obtain rfl := Option.some.inj hresp
    exact hchanged (addSample_energy_of_false hfalse)
  · exact henupd c x rfl
  · exact henrsta rfl

/-! ### What a command can do to a window (R136, R137, R152) -/

/-- A window is kept, or holds zeros, or has taken the square of a sample. -/
inductive WindowMove (N : NumOps) (d : DelayLine) : DelayLine → Prop
  | kept : WindowMove N d d
  | zeroed (capacity : Nat) : WindowMove N d (DelayLine.create N.zero capacity)
  | saved (x : NumVal) : WindowMove N d (d.save (N.mul x x))

/-- A move made under a condition is a move. -/
theorem WindowMove.ite {N : NumOps} {d e : DelayLine} {p : Prop} [Decidable p] (h : WindowMove N d e) :
    WindowMove N d (if p then e else d) := by
  split
  · exact h
  · exact .kept

/-- ENRSTA's loop zeroes windows. -/
theorem windowMove_forChannels_enReset {s : State} (henw : s.nch ≤ s.enw.length) (hensum : s.nch ≤ s.ensum.length)
    (c : Nat) : WindowMove s.num (enwOf s c) (enwOf (forChannels s.nch enReset s) c) := by
  obtain ⟨_, _, _, hreset⟩ := forChannels_enReset s.nch s henw hensum
  rw [(hreset c).1, DelayLine.reset_eq_create]
  exact WindowMove.ite (.zeroed _)

/-- RESET zeroes windows: its loop is IIRRSTA's, which writes none, and then ENRSTA's. -/
theorem windowMove_pipelineReset {s : State} (henw : s.nch ≤ s.enw.length) (hensum : s.nch ≤ s.ensum.length)
    (c : Nat) : WindowMove s.num (enwOf s c) (enwOf (pipelineReset s) c) := by
  rw [pipelineReset, forChannels_resetChannel, forChannels_iirReset_frame]
  exact windowMove_forChannels_enReset (s := { firReset s with iir := _ }) henw hensum c

/-- A tick of ADDS saves the square of the channel's filter output, or leaves the window. -/
theorem windowMove_addSample {s : State} (hregs : regsValid s.cfg s.toRegs = true) (x : NumVal) (c : Nat) :
    WindowMove s.num (enwOf s c) (enwOf (addSample x s).2 c) := by
  by_cases hrun : s.deccnt + 1 = s.cfg.decim
  · obtain ⟨_, ⟨hiir, _⟩, ⟨henw, _, hensum⟩, _⟩ := (regsValid_iff _ _).mp hregs
    obtain ⟨_, hwindow, _⟩ := forChannels_channelTick (firProcess x true s).1 s.nch c
      { s with deccnt := 0, firh := s.firh.save x } hiir.ge henw.ge hensum.ge
    rw [addSample_run hrun, hwindow]
    exact WindowMove.ite (.saved _)
  · rw [addSample_hold hrun]
    exact .kept

/-- Every command's effect on a good initialised state moves each window in one of the three ways. -/
theorem Effect.windowMove {s u : State} {i : Instr} (heffect : Effect s i u) (hinitd : s.initd = true)
    (hregs : Machine.regsValid s.cfg s.toRegs = true) (c : Nat) : WindowMove s.num (enwOf s c) (enwOf u c) := by
  obtain ⟨_, _, ⟨henw, _, hensum⟩, _⟩ := (regsValid_iff _ _).mp hregs
  cases heffect with
  | init _ huninit => exact absurd (huninit.symm.trans hinitd) Bool.false_ne_true
  | reset =>
    rw [← pipelineReset_frame]
    exact windowMove_pipelineReset henw.ge hensum.ge c
  | adds x =>
    rw [← addSample_frame]
    exact windowMove_addSample hregs _ c
  | enupd d x =>
    rw [enwOf_enUpdate]
    split
    case isTrue h =>
      obtain ⟨rfl, _⟩ := h
      exact .saved _
    case isFalse => exact .kept
  | enrsta =>
    rw [← forChannels_enReset_frame]
    exact windowMove_forChannels_enReset henw.ge hensum.ge c
  | _ => exact .kept

/-! ### No window holds a negative value in exact arithmetic (R144) -/

/-- Every element of the window is at least zero. -/
def DelayLine.NonNegative (d : DelayLine) : Prop := ∀ v ∈ d.hist, 0 ≤ v.toRat

/-- A window of zeros holds no negative value. -/
theorem DelayLine.nonNegative_create {z : NumVal} (hz : z.toRat = 0) (n : Nat) :
    (DelayLine.create z n).NonNegative := by
  intro v hv
  rw [List.eq_of_mem_replicate hv, hz]

theorem DelayLine.NonNegative.save {d : DelayLine} (hd : d.NonNegative) {v : NumVal} (hv : 0 ≤ v.toRat) :
    (d.save v).NonNegative := by
  intro w hw
  obtain rfl | hw := List.mem_cons.mp (List.mem_of_mem_take hw)
  · exact hv
  · exact hd w hw

/-- In `NUM_EXACT` every move keeps a window without negative values: a square is none. -/
theorem WindowMove.nonNegative {d e : DelayLine} (hmove : WindowMove numExact d e) (hd : d.NonNegative) :
    e.NonNegative := by
  cases hmove with
  | kept => exact hd
  | zeroed n => exact DelayLine.nonNegative_create rfl n
  | saved x => exact hd.save (mul_self_nonneg x.toRat)

/-- An initialised block's channel count stays (R26). -/
theorem Effect.nch_eq {s u : State} {i : Instr} (heffect : Effect s i u) (hinitd : s.initd = true) :
    u.nch = s.nch := by
  cases heffect with
  | init _ huninit => exact absurd (huninit.symm.trans hinitd) Bool.false_ne_true
  | _ => rfl

/-- After INIT the windows in use hold zeros. -/
theorem enwOf_init {s : State} {n c : Nat} (hc : c < n) :
    enwOf { s with toRegs := initRegs s.cfg n, initd := true } c =
      DelayLine.create s.num.zero s.cfg.energyWindow := by
  rw [enwOf, initRegs, List.getD_replicate _ hc]

/-- A command's effect keeps the windows in use without negative values; INIT creates them so. -/
theorem Effect.windows_nonNegative {s u : State} {i : Instr} (heffect : Effect s i u) (hx : s.cfg.num = .exact)
    (hwf : s.wf = true) (hwindows : s.initd = true → ∀ c < s.nch, (enwOf s c).NonNegative) (hu : u.initd = true) :
    ∀ c < u.nch, (enwOf u c).NonNegative := by
  intro c hc
  obtain hinitd | ⟨n, _, rfl⟩ := heffect.initd_cases
  · have hs : s.initd = true := hinitd ▸ hu
    have hmove := heffect.windowMove hs (wf_initd hwf hs).2 c
    rw [State.num_exact hx] at hmove
    exact hmove.nonNegative (hwindows hs c (heffect.nch_eq hs ▸ hc))
  · have hc' : c < n := hc
    rw [enwOf_init hc', State.num_exact hx]
    exact DelayLine.nonNegative_create rfl _

/-- Settles O41: a window takes zeros and squares alone, and a sum of values that are not negative is not negative. -/
theorem energyNotNegative : Obligations.EnergyNotNegative := by
  unfold Obligations.EnergyNotNegative
  constructor
  · intro s t hx hwf hwindows hstep ht
    obtain rfl | rfl | rfl | ⟨i, hexec⟩ := step_cases hstep
    · exact hwindows ht
    · exact absurd ht Bool.false_ne_true
    · exact hwindows ht
    · obtain ⟨u, r, heffect, rfl⟩ := effect_of_exec hexec
      exact heffect.windows_nonNegative hx hwf hwindows ht
  · intro s hsum hwindows c hc
    rw [hsum c hc, windowSum]
    exact List.sum_nonneg (List.forall_mem_map.mpr (hwindows c hc))

/-! ### A stream of samples into one channel (R142) -/

section Stream

variable {s : State} {c : Nat}

theorem enOutputs_concat (c : Nat) (xs : List NumVal) (x : NumVal) (s : State) :
    (enOutputs c (xs ++ [x]) s).2 = (enUpdate c x (enOutputs c xs s).2).2 := by
  induction xs generalizing s with
  | nil => rfl
  | cons y ys ih => exact ih (enUpdate c y s).2

/-- A stream keeps the parameters and the number of energies. -/
theorem enOutputs_frame (c : Nat) (xs : List NumVal) (s : State) :
    (enOutputs c xs s).2.cfg = s.cfg ∧ (enOutputs c xs s).2.ensum.length = s.ensum.length := by
  induction xs generalizing s with
  | nil => exact ⟨rfl, rfl⟩
  | cons x xs ih =>
    obtain ⟨hcfg, hlen⟩ := ih (enUpdate c x s).2
    exact ⟨hcfg, hlen.trans List.length_set⟩

/-- The window after a stream has taken the squares of its samples in order. -/
theorem enwOf_enOutputs (hc : c < s.enw.length) (xs : List NumVal) :
    enwOf (enOutputs c xs s).2 c = (xs.map fun x => s.num.mul x x).foldl DelayLine.save (enwOf s c) := by
  induction xs generalizing s with
  | nil => rfl
  | cons x xs ih =>
    have hupdate : enwOf (enUpdate c x s).2 c = (enwOf s c).save (s.num.mul x x) := by
      rw [enwOf_enUpdate, if_pos ⟨rfl, hc⟩]
    refine (ih (s := (enUpdate c x s).2) (by simpa using hc)).trans ?_
    rw [hupdate]
    rfl

/-- Update `j` answers the energy that the samples up to it leave. -/
theorem enOutputs_getElem? (hc : c < s.ensum.length) {xs : List NumVal} {j : Nat} (hj : j < xs.length) :
    (enOutputs c xs s).1[j]? = some (ensumOf (enOutputs c (xs.take (j + 1)) s).2 c) := by
  induction xs generalizing s j with
  | nil => exact absurd hj (Nat.not_lt_zero j)
  | cons x xs ih =>
    cases j with
    | zero =>
      refine congrArg some (Eq.symm ?_)
      exact (ensumOf_enUpdate c c x s).trans (if_pos ⟨rfl, hc⟩)
    | succ j => exact ih (s := (enUpdate c x s).2) (by simpa using hc) (Nat.lt_of_succ_lt_succ hj)

/-- The energy of channel `c` after `j` updates with the constant `v`. -/
def energyAfter (c : Nat) (v : NumVal) (s : State) (j : Nat) : NumVal :=
  ensumOf (enOutputs c (List.replicate j v) s).2 c

theorem enOutputs_replicate_getElem? (hc : c < s.ensum.length) (v : NumVal) {n j : Nat} (hj : j < n) :
    (enOutputs c (List.replicate n v) s).1[j]? = some (energyAfter c v s (j + 1)) := by
  rw [enOutputs_getElem? hc (by simpa using hj), List.take_replicate, Nat.min_eq_left hj, energyAfter]

/-- Channel `c` has its entries in the energy stores, and they are zero, as `EN.reset` leaves them (R137). -/
structure ZeroedChannel (s : State) (c : Nat) : Prop where
  enw_stored : c < s.enw.length
  ensum_stored : c < s.ensum.length
  window_pos : 1 ≤ s.cfg.energyWindow
  window : enwOf s c = DelayLine.create s.num.zero s.cfg.energyWindow
  energy : ensumOf s c = s.num.zero

/-- A channel in use of a good initialised state is stored, so it is zeroed where its two entries are. -/
theorem zeroedChannel_of_wf (hwf : s.wf = true) (hinitd : s.initd = true) (hc : c < s.nch)
    (hzero : s.num.zero = .rat 0) (hwindow : enwOf s c = ⟨List.replicate s.cfg.energyWindow (.rat 0)⟩)
    (henergy : ensumOf s c = .rat 0) : ZeroedChannel s c := by
  obtain ⟨hk, hregs⟩ := wf_initd hwf hinitd
  obtain ⟨henw, hensum, _⟩ := energyStores_sized hregs hc
  rw [← hzero] at hwindow henergy
  exact ⟨henw, hensum, (configValid_facts hk).2.1, hwindow, henergy⟩

/-- What leaves a zeroed channel's window is zero while it fills, and the square of the constant from then on. -/
theorem ZeroedChannel.energyAfter_succ (h : ZeroedChannel s c) (v : NumVal) (j : Nat) :
    energyAfter c v s (j + 1) = energySum s.num (energyAfter c v s j) (s.num.mul v v)
      (if j < s.cfg.energyWindow then s.num.zero else s.num.mul v v) := by
  obtain ⟨hcfg, hlen⟩ := enOutputs_frame c (List.replicate j v) s
  have hage : s.cfg.energyWindow - 1 < s.cfg.energyWindow := Nat.sub_one_lt_of_lt h.window_pos
  have hleaving : (enwOf (enOutputs c (List.replicate j v) s).2 c).read s.num.zero (s.cfg.energyWindow - 1) =
      if j < s.cfg.energyWindow then s.num.zero else s.num.mul v v := by
    rw [enwOf_enOutputs h.enw_stored, h.window, DelayLine.read_foldl_save_create _ _ hage, List.map_replicate,
      List.reverse_replicate]
    split
    case isTrue hfills => exact List.getD_eq_default _ _ (by simpa using by omega)
    case isFalse hfull => exact List.getD_replicate _ (by omega)
  rw [energyAfter, List.replicate_succ', enOutputs_concat, ensumOf_enUpdate, if_pos ⟨rfl, hlen ▸ h.ensum_stored⟩,
    enUpdate, State.num, hcfg, hleaving]
  rfl

end Stream

/-- In `NUM_EXACT` the energy after `j` updates is as many squares as the window holds. -/
theorem ZeroedChannel.energyAfter_exact {s : State} {c : Nat} (h : ZeroedChannel s c) (hx : s.cfg.num = .exact)
    (v : NumVal) (j : Nat) :
    energyAfter c v s j = .rat ((min j s.cfg.energyWindow : Nat) * (v.toRat * v.toRat)) := by
  have hnum := State.num_exact hx
  induction j with
  | zero =>
    rw [Nat.zero_min, Nat.cast_zero, zero_mul]
    exact h.energy.trans (congrArg NumOps.zero hnum)
  | succ j ih =>
    rw [h.energyAfter_succ, ih, hnum]
    refine congrArg NumVal.rat ?_
    rcases Nat.lt_or_ge j s.cfg.energyWindow with hfills | hfull
    · rw [if_pos hfills, Nat.min_eq_left hfills.le, Nat.min_eq_left hfills]
      simp only [numExact, NumVal.toRat]
      push_cast
      ring
    · rw [if_neg hfull.not_gt, Nat.min_eq_right hfull, Nat.min_eq_right (Nat.le_succ_of_le hfull)]
      simp only [numExact, NumVal.toRat]
      ring

/-- Settles O39: each update adds the square, and takes it away again once the window is full. -/
theorem energyOfConstantInput : Obligations.EnergyOfConstantInput := by
  unfold Obligations.EnergyOfConstantInput
  intro s c n j v hx hwf hinitd hc hwindow henergy hj
  have hzero : s.num.zero = .rat 0 := by rw [State.num_exact hx]; rfl
  have hchannel := zeroedChannel_of_wf hwf hinitd hc hzero hwindow henergy
  rw [enOutputs_replicate_getElem? hchannel.ensum_stored v hj, hchannel.energyAfter_exact hx]

/-! ### Sums of squares in binary64 (R13 (a), R142) -/

/-- A binary64 value with sign bit 0 that is no NaN: `+0.0`, a positive value, or positive infinity. -/
def B64NonNegative (x : NumVal) : Prop := ∃ m, x = b64OfMagnitude false m

theorem b64NonNegative_zero : B64NonNegative (.rat 0) := ⟨0, rfl⟩

theorem b64NonNegative_round {q : Rat} (hq : 0 ≤ q) : B64NonNegative (b64Round q) :=
  ⟨b64Magnitude q, by rw [b64Round, decide_eq_false hq.not_gt]⟩

/-- Such a value is infinity or a rational that is rounded to itself. -/
theorem B64NonNegative.cases {x : NumVal} (hx : B64NonNegative x) :
    x = .inf false ∨ ∃ q, 0 ≤ q ∧ x = .rat q ∧ b64Round q = .rat q := by
  obtain ⟨m, rfl⟩ := hx
  rcases Nat.lt_or_ge m b64InfMagnitude with hfinite | hinf
  · have hvalue : b64OfMagnitude false m = .rat (b64Value m) := by
      rw [b64OfMagnitude, if_neg hfinite.not_ge]
      split
      case isTrue hm => subst hm; decide +kernel
      case isFalse => rfl
    refine .inr ⟨b64Value m, b64Value_nonneg m, hvalue, ?_⟩
    rw [b64Round, decide_eq_false (b64Value_nonneg m).not_gt, b64Magnitude_b64Value, hvalue]
  · exact .inl (if_pos hinf)

/-- A rounded sum of zero is written out in `b64Sum`; it is the rounding of zero as well. -/
theorem b64Round_zero : b64Round 0 = .rat 0 := by decide +kernel

theorem b64Add_rat (p q : Rat) : b64Add (.rat p) (.rat q) = b64Round (p + q) := by
  by_cases hzero : p + q = 0
  · simp [b64Add, b64Sum, hzero, b64Round_zero]
  · simp [b64Add, b64Sum, hzero]

/-- The sum of two values that are not negative is not negative, and no NaN. -/
theorem B64NonNegative.add {x y : NumVal} (hx : B64NonNegative x) (hy : B64NonNegative y) :
    B64NonNegative (b64Add x y) := by
  have hinf : B64NonNegative (.inf false) := ⟨b64InfMagnitude, rfl⟩
  obtain rfl | ⟨p, hp, rfl, _⟩ := hx.cases
  · obtain rfl | ⟨q, _, rfl, _⟩ := hy.cases <;> exact hinf
  · obtain rfl | ⟨q, hq, rfl, _⟩ := hy.cases
    · exact hinf
    · rw [b64Add_rat]
      exact b64NonNegative_round (add_nonneg hp hq)

/-- Adding `+0.0` to a value that is already rounded changes nothing. -/
theorem B64NonNegative.add_zero {x : NumVal} (hx : B64NonNegative x) : b64Add x (.rat 0) = x := by
  obtain rfl | ⟨q, _, rfl, hround⟩ := hx.cases
  · rfl
  · rw [b64Add_rat, Rat.add_zero, hround]

/-- Subtracting `+0.0` adds `-0.0`, which changes such a value as little. -/
theorem B64NonNegative.sub_zero {x : NumVal} (hx : B64NonNegative x) : b64Sub x (.rat 0) = x := by
  have hneg : b64Neg (.rat 0) = .negZero := rfl
  obtain rfl | ⟨q, _, rfl, hround⟩ := hx.cases
  · rfl
  · by_cases hq : q = 0
    · subst hq; rfl
    · simp [b64Sub, hneg, b64Sum, hq, hround]

/-- A finite value less itself is `+0.0`; of an infinity the difference would be invalid. -/
theorem b64Sub_self {x : NumVal} (hx : x.isFinite = true) : b64Sub x x = .rat 0 := by
  cases x with
  | rat q =>
    by_cases hq : q = 0
    · subst hq; rfl
    · simp [b64Sub, b64Neg, b64Sum, hq]
  | negZero => rfl
  | inf | nan => exact absurd hx Bool.false_ne_true

/-- A finite square is not negative: the two signs are equal. -/
theorem b64NonNegative_square {v : NumVal} (hfinite : (b64Mul v v).isFinite = true) :
    B64NonNegative (b64Mul v v) := by
  cases v with
  | rat q =>
    by_cases hq : q = 0
    · exact ⟨0, by simp [b64Mul, b64Product, NumVal.toRat, hq]⟩
    · have hsquare : b64Mul (.rat q) (.rat q) = b64Round (q * q) := by
        simp [b64Mul, b64Product, NumVal.toRat, hq]
      rw [hsquare]
      exact b64NonNegative_round (mul_self_nonneg q)
  | negZero => exact ⟨0, by simp [b64Mul, b64Product, NumVal.toRat]⟩
  | inf | nan => exact absurd hfinite Bool.false_ne_true

section Saturation

variable {s : State} {c : Nat} {v : NumVal}

theorem State.num_binary64 (hx : s.cfg.num = .binary64) : s.num = numBinary64 := by
  rw [State.num, hx, numOps]

/-- In `NUM_BINARY64` an update adds the square while the window fills, and `+0.0` from then on. -/
theorem ZeroedChannel.energyAfter_succ_binary64 (h : ZeroedChannel s c) (hx : s.cfg.num = .binary64)
    (hfinite : (b64Mul v v).isFinite = true) (j : Nat) :
    energyAfter c v s (j + 1) =
      b64Add (energyAfter c v s j) (if j < s.cfg.energyWindow then b64Mul v v else .rat 0) := by
  rw [h.energyAfter_succ, State.num_binary64 hx]
  refine congrArg (b64Add _) ?_
  split
  · exact (b64NonNegative_square hfinite).sub_zero
  · exact b64Sub_self hfinite

/-- Every energy of the stream is a sum of squares, so it is not negative and no NaN. -/
theorem ZeroedChannel.b64NonNegative_energyAfter (h : ZeroedChannel s c) (hx : s.cfg.num = .binary64)
    (hfinite : (b64Mul v v).isFinite = true) (j : Nat) : B64NonNegative (energyAfter c v s j) := by
  induction j with
  | zero => exact ⟨0, h.energy.trans (congrArg NumOps.zero (State.num_binary64 hx))⟩
  | succ j ih =>
    rw [h.energyAfter_succ_binary64 hx hfinite]
    split
    · exact ih.add (b64NonNegative_square hfinite)
    · exact ih.add b64NonNegative_zero

/-- Once the window is full the square less itself is `+0.0`, and the energy stays. -/
theorem ZeroedChannel.energyAfter_saturated (h : ZeroedChannel s c) (hx : s.cfg.num = .binary64)
    (hfinite : (b64Mul v v).isFinite = true) {j : Nat} (hfull : s.cfg.energyWindow ≤ j) :
    energyAfter c v s j = energyAfter c v s s.cfg.energyWindow := by
  induction j, hfull using Nat.le_induction with
  | base => rfl
  | succ j hfull ih =>
    rw [h.energyAfter_succ_binary64 hx hfinite, if_neg hfull.not_gt,
      (h.b64NonNegative_energyAfter hx hfinite j).add_zero, ih]

end Saturation

/-- Settles O40: the W-th answer and every later one are the energy that the full window leaves. -/
theorem energySaturatesInBinary64 : Obligations.EnergySaturatesInBinary64 := by
  unfold Obligations.EnergySaturatesInBinary64
  intro s c n j v hx hwf hinitd hc hwindow henergy hfinite hfull hj
  have hzero : s.num.zero = .rat 0 := by rw [State.num_binary64 hx]; rfl
  have hchannel := zeroedChannel_of_wf hwf hinitd hc hzero hwindow henergy
  have hstored := hchannel.ensum_stored
  rw [enOutputs_replicate_getElem? hstored v hj, enOutputs_replicate_getElem? hstored v (by omega),
    hchannel.energyAfter_saturated hx hfinite (Nat.le_succ_of_le hfull), Nat.sub_add_cancel hchannel.window_pos]

end Sys2Proof.Machine

namespace Sys2Proof.Machine

/-! ## The coordinator (R152 to R158) -/

/-! ### INIT and RESET -/

theorem exec_init_refused {s : State} {n : Nat} (h : s.initd = true ∨ countValid s n = false) :
    exec (.init n) s = .next { s with resp := some (errorResponse .errConfig) } := by
  change execInit n s = _
  rcases h with h | h <;> simp [execInit, h, raise_next]

theorem exec_init_accepted {s : State} {n : Nat} (hinitd : s.initd = false) (hn : countValid s n = true) :
    exec (.init n) s =
      .next { s with toRegs := initRegs s.cfg n, initd := true, resp := some (okResponse false 0 []) } := by
  change execInit n s = _
  simp [execInit, hinitd, hn, respondDone, respond_next]

/-- Settles O16: INIT looks at `INITD` and then at the count, and writes every register or none. -/
theorem initCommand : Obligations.InitCommand := by
  unfold Obligations.InitCommand
  refine fun n s => ⟨fun hinitd => exec_init_refused (.inl hinitd), fun _ hout => exec_init_refused (.inr ?_),
    fun hinitd hpos hmax => exec_init_accepted hinitd ?_⟩
  · refine Bool.and_eq_false_iff.mpr (hout.imp (fun h => decide_eq_false ?_) fun h => decide_eq_false h.not_ge)
    exact (Nat.lt_one_iff.mpr h).not_ge
  · exact Bool.and_eq_true_iff.mpr ⟨decide_eq_true hpos, decide_eq_true hmax⟩

/-- RESET leaves the stores of a good state as INIT creates them. -/
theorem pipelineReset_eq {s : State} (hregs : regsValid s.cfg s.toRegs = true) :
    pipelineReset s = { s with
      firh := DelayLine.create s.num.zero s.cfg.firTaps
      iir := List.replicate s.nch (List.replicate s.cfg.iirSections (zeroSection s.num.zero))
      enw := List.replicate s.nch (DelayLine.create s.num.zero s.cfg.energyWindow)
      ensum := List.replicate s.nch s.num.zero
      deccnt := 0 } := by
  obtain ⟨⟨_, _, _, hfirh⟩, _⟩ := (regsValid_iff _ _).mp hregs
  have hfir := regsValid_firReset s hregs
  have hiir : regsValid s.cfg (forChannels s.nch iirReset (firReset s)).toRegs = true :=
    (regsValid_forChannels iirReset (firReset s) (fun _ _ => rfl) (fun _ _ => rfl) regsValid_iirReset hfir).2.2
  have hiirEq : forChannels s.nch iirReset (firReset s) = _ := forChannels_iirReset_eq hfir
  have hline : s.firh.reset s.num.zero = DelayLine.create s.num.zero s.cfg.firTaps := by
    rw [DelayLine.reset_eq_create, hfirh]
  rw [hiirEq] at hiir
  rw [pipelineReset, forChannels_resetChannel, hiirEq, ← hline]
  exact congrArg (fun t : State => { t with deccnt := 0 }) (forChannels_enReset_eq hiir)

/-- Settles O17: the loops' result, behind the `INITD` check. -/
theorem resetCommand : Obligations.ResetCommand := by
  unfold Obligations.ResetCommand
  refine fun s => ⟨fun hinitd hwf => ?_, fun hinitd => uninitialisedRefused _ s hinitd nofun⟩
  refine (whenInit_true s _ hinitd).trans ?_
  rw [pipelineReset_eq (wf_initd hwf hinitd).2]
  rfl

/-! ### The components' commands, behind their checks -/

/-- FIRP of an initialised block does what `FIR.process` does (R112). -/
theorem exec_firp {s : State} (hinitd : s.initd = true) (x : Word) (run : Bool) :
    exec (.firp x run) s = .next { (firProcess (s.num.dec x) run s).2 with
      resp := some (okResponse false 0 [s.num.enc (firProcess (s.num.dec x) run s).1]) } :=
  whenInit_true s _ hinitd

/-- IIRP of a channel in use does what `IIR.process` does (R123). -/
theorem exec_iirp {s : State} {c : Nat} (hinitd : s.initd = true) (hc : c < s.nch) (x : Word) :
    exec (.iirp c x) s = .next { (iirProcess c (s.num.dec x) s).2 with
      resp := some (okResponse false 0 [s.num.enc (iirProcess c (s.num.dec x) s).1]) } :=
  whenInit_guard_true hinitd (decide_eq_true hc)

/-- ENUPD of a channel in use does what `EN.update` does (R138). -/
theorem exec_enupd {s : State} {c : Nat} (hinitd : s.initd = true) (hc : c < s.nch) (x : Word) :
    exec (.enupd c x) s = .next { (enUpdate c (s.num.dec x) s).2 with
      resp := some (okResponse false 0 [s.num.enc (enUpdate c (s.num.dec x) s).1]) } :=
  whenInit_guard_true hinitd (decide_eq_true hc)

/-! ### One ADDS (R154, R155) -/

/-- ADDS of an initialised block answers with the tick's flag. -/
theorem exec_adds {s : State} (hinitd : s.initd = true) (x : Word) :
    exec (.adds x) s = .next { (addSample (s.num.dec x) s).2 with
      resp := some (okResponse (decide (s.deccnt + 1 = s.cfg.decim)) 0 []) } :=
  whenInit_true s _ hinitd

theorem addSample_initd (x : NumVal) (s : State) : (addSample x s).2.initd = s.initd := by
  rw [addSample_frame]

theorem addSample_cfg (x : NumVal) (s : State) : (addSample x s).2.cfg = s.cfg := by
  rw [addSample_frame]

/-- Every tick saves its sample, decimating or not (R155). -/
theorem addSample_firh (x : NumVal) (s : State) : (addSample x s).2.firh = s.firh.save x := by
  by_cases hrun : s.deccnt + 1 = s.cfg.decim
  · rw [addSample_run hrun, forChannels_frame s.nch (channelTick _) _ fun _ _ => rfl]
  · rw [addSample_hold hrun]
    rfl

/-- The counter counts modulo D (R154). -/
theorem addSample_deccnt {s : State} (hbelow : s.deccnt < s.cfg.decim) (x : NumVal) :
    (addSample x s).2.deccnt = (s.deccnt + 1) % s.cfg.decim := by
  by_cases hrun : s.deccnt + 1 = s.cfg.decim
  · rw [addSample_run hrun, forChannels_frame s.nch (channelTick _) _ fun _ _ => rfl, hrun, Nat.mod_self]
  · rw [addSample_hold hrun, Nat.mod_eq_of_lt (by omega)]
    rfl

/-- Settles O19: such a tick is `FIR.process` without `run`, and the flag is false. -/
theorem addsHoldingTick : Obligations.AddsHoldingTick := by
  unfold Obligations.AddsHoldingTick
  intro x s hinitd hrun
  rw [exec_adds hinitd, addSample_hold hrun, decide_eq_false hrun]
  rfl

/-- Settles O20: the loop's frame, and what it leaves in each channel. -/
theorem addsDecimatingTick : Obligations.AddsDecimatingTick := by
  unfold Obligations.AddsDecimatingTick
  intro x s hinitd hwf hrun
  obtain ⟨_, ⟨hiir, _⟩, ⟨henw, _, hensum⟩, _⟩ := (regsValid_iff _ _).mp (wf_initd hwf hinitd).2
  obtain ⟨hframe, hiirLen, henwLen, hensumLen⟩ := forChannels_channelTick_frame (firProcess (s.num.dec x) true s).1
    s.nch { s with deccnt := 0, firh := s.firh.save (s.num.dec x) }
  refine ⟨_, exec_adds hinitd x, ?_⟩
  rw [addSample_run hrun, decide_eq_true hrun]
  refine ⟨congrArg (fun t : State => { t with resp := some (okResponse true 0 []) }) hframe,
    hiirLen.trans hiir, henwLen.trans henw, hensumLen.trans hensum, fun c hc => ?_⟩
  obtain ⟨hsections, hwindow, hsum⟩ := forChannels_channelTick (firProcess (s.num.dec x) true s).1 s.nch c
    { s with deccnt := 0, firh := s.firh.save (s.num.dec x) } hiir.ge henw.ge hensum.ge
  rw [if_pos hc] at hsections hwindow hsum
  exact ⟨hsections, hwindow, hsum⟩

/-! ### Runs of commands -/

/-- A run begins with its first command's response and goes on in the state that command leaves. -/
theorem runCommands_cons {s t : State} {i : Instr} (hexec : exec i s = .next t) (is : List Instr) :
    runCommands (i :: is) s = (t.resp.toList ++ (runCommands is t).1, (runCommands is t).2) := by
  rw [runCommands, hexec]

/-- No command stops a run: what follows runs in the state that the commands before it leave. -/
theorem runCommands_append (is js : List Instr) (s : State) :
    (runCommands (is ++ js) s).2 = (runCommands js (runCommands is s).2).2 := by
  induction is generalizing s with
  | nil => rfl
  | cons i is ih =>
    obtain ⟨t, _, hexec, _⟩ := exec_answered i s
    rw [List.cons_append, runCommands_cons hexec, runCommands_cons hexec, ih]

/-! ### Counting the decimations (R158 (a)) -/

/-- A counter below D moves on to a multiple of D exactly where it reaches D. -/
theorem succ_mod_eq_zero_iff {count d : Nat} (hbelow : count < d) : (count + 1) % d = 0 ↔ count + 1 = d :=
  ⟨fun h => Nat.le_antisymm hbelow (Nat.le_of_dvd count.succ_pos (Nat.dvd_of_mod_eq_zero h)),
    fun h => h ▸ Nat.mod_self _⟩

/-- From a counter below D the k-th response of consecutive ADDS tells whether the counter and the k samples reach a
multiple of D. -/
theorem runCommands_adds_flags {s : State} (xs : List Word) (hinitd : s.initd = true)
    (hbelow : s.deccnt < s.cfg.decim) :
    (runCommands (xs.map Instr.adds) s).1.map Response.b =
      (List.range xs.length).map fun k => decide ((s.deccnt + (k + 1)) % s.cfg.decim = 0) := by
  induction xs generalizing s with
  | nil => rfl
  | cons x xs ih =>
    have hcfg := addSample_cfg (s.num.dec x) s
    have hcount := addSample_deccnt hbelow (s.num.dec x)
    rw [List.map_cons, runCommands_cons (exec_adds hinitd x), List.map_append, ih, List.length_cons,
      List.range_succ_eq_map, List.map_cons, List.map_map]
    · simp only [Option.toList_some, List.map_cons, List.map_nil, List.singleton_append, okResponse, zero_add,
        succ_mod_eq_zero_iff hbelow, hcfg, hcount, Nat.mod_add_mod]
      refine congrArg _ (List.map_congr_left fun k _ => ?_)
      rw [Function.comp_apply, Nat.succ_eq_add_one, Nat.add_assoc, Nat.add_comm 1 (k + 1)]
    · exact (addSample_initd _ s).trans hinitd
    · simp only [hcfg, hcount]
      exact Nat.mod_lt _ (Nat.zero_lt_of_lt hbelow)

/-- Of 1, ..., n the multiples of d are `n div d`. -/
theorem countP_multiples (d n : Nat) : (List.range n).countP (fun k => decide ((k + 1) % d = 0)) = n / d := by
  induction n with
  | zero => simp
  | succ n ih => simp [List.range_succ, ih, Nat.succ_div, Nat.dvd_iff_mod_eq_zero, List.countP_singleton]

/-- Settles O21: the flags position by position, and the multiples of D among the positions. -/
theorem addsCountsDecimations : Obligations.AddsCountsDecimations := by
  unfold Obligations.AddsCountsDecimations
  intro s xs hinitd hwf hzero
  obtain ⟨⟨_, _, hbelow, _⟩, _⟩ := (regsValid_iff _ _).mp (wf_initd hwf hinitd).2
  have hflags := runCommands_adds_flags xs hinitd hbelow
  simp only [hzero, zero_add] at hflags
  refine ⟨hflags, ?_⟩
  calc ((runCommands (xs.map Instr.adds) s).1.filter Response.b).length
      = ((runCommands (xs.map Instr.adds) s).1.map Response.b).countP id := by
        rw [← List.countP_eq_length_filter, List.countP_map]; rfl
    _ = (List.range xs.length).countP (fun k => decide ((k + 1) % s.cfg.decim = 0)) := by
        rw [hflags, List.countP_map]; rfl
    _ = xs.length / s.cfg.decim := countP_multiples _ _

/-! ### The histories of a stream (R158 (c)) -/

/-- The command made of a sample saves that sample in FIRH, and keeps the block initialised under its parameters. -/
def SavesSample (command : Word → Instr) : Prop :=
  ∀ (x : Word) (s : State), s.initd = true →
    ∃ t, exec (command x) s = .next t ∧ t.initd = true ∧ t.cfg = s.cfg ∧ t.firh = s.firh.save (s.num.dec x)

theorem savesSample_adds : SavesSample .adds := fun x s hinitd =>
  ⟨_, exec_adds hinitd x, (addSample_initd _ s).trans hinitd, addSample_cfg _ s, addSample_firh _ s⟩

theorem savesSample_firp (run : Bool) : SavesSample (.firp · run) := fun x _ hinitd =>
  ⟨_, exec_firp hinitd x run, hinitd, rfl, rfl⟩

/-- A stream of such commands leaves in FIRH what saving the samples one after the other leaves there. -/
theorem SavesSample.runCommands_firh {command : Word → Instr} (hsave : SavesSample command) (xs : List Word)
    {s : State} (hinitd : s.initd = true) :
    (runCommands (xs.map command) s).2.firh = (xs.map s.num.dec).foldl DelayLine.save s.firh := by
  induction xs generalizing s with
  | nil => rfl
  | cons x xs ih =>
    obtain ⟨t, hexec, ht, hcfg, hfirh⟩ := hsave x s hinitd
    have hnum : t.num = s.num := congrArg (fun k => numOps k.num) hcfg
    rw [List.map_cons, runCommands_cons hexec, ih ht, hfirh, hnum]
    rfl

/-- Settles O23: both streams save every sample. -/
theorem decimationDropsNoInput : Obligations.DecimationDropsNoInput := by
  unfold Obligations.DecimationDropsNoInput
  intro s xs run hinitd
  rw [savesSample_adds.runCommands_firh xs hinitd, (savesSample_firp run).runCommands_firh xs hinitd]

/-! ### ADDS and the component commands (R158 (d)) -/

/-- A change of the state that commutes with every turn of a loop commutes with the loop. -/
theorem forChannels_comm {body : Nat → State → State} (f : State → State)
    (hf : ∀ c t, body c (f t) = f (body c t)) (n : Nat) (s : State) :
    forChannels n body (f s) = f (forChannels n body s) := by
  induction n with
  | zero => rfl
  | succ n ih => rw [forChannels_succ, forChannels_succ, ih, hf]

/-- What the channel's cascade makes of an input. -/
def cascadeOutput (y : NumVal) (s : State) (c : Nat) : NumVal := (cascade s.num (sosRow s c) (iirOf s c) y).1

/-- The turns of the channels below `c` do not change what channel `c` makes of an input. -/
theorem cascadeOutput_forChannels (y : NumVal) (c : Nat) (s : State) (hiir : c ≤ s.iir.length)
    (henw : c ≤ s.enw.length) (hensum : c ≤ s.ensum.length) :
    cascadeOutput y (forChannels c (channelTick y) s) c = cascadeOutput y s c := by
  have hcfg : (forChannels c (channelTick y) s).cfg = s.cfg := by
    rw [(forChannels_channelTick_frame y c s).1]
  rw [cascadeOutput, (forChannels_channelTick y c c s hiir henw hensum).1, if_neg (Nat.lt_irrefl c), State.num,
    sosRow, hcfg]
  rfl

/-- The commands that run channel `c` on the word `x`: IIRP, then ENUPD of the word `z`. -/
def channelCommands (x z : Word) (c : Nat) : List Instr := [.iirp c x, .enupd c z]

/-- Where `x` is the word of `y` and `z` that of the channel's output, the two commands have the effect of the
channel's turn in ADDS. -/
theorem runCommands_channelCommands {s : State} {c : Nat} {x z : Word} {y : NumVal} (hinitd : s.initd = true)
    (hc : c < s.nch) (hx : s.num.dec x = y) (hz : s.num.dec z = cascadeOutput y s c) :
    ∃ r, (runCommands (channelCommands x z c) s).2 = { channelTick y c s with resp := r } := by
  have hiirp := exec_iirp hinitd hc x
  have henupd := exec_enupd (s := { (iirProcess c (s.num.dec x) s).2 with
    resp := some (okResponse false 0 [s.num.enc (iirProcess c (s.num.dec x) s).1]) }) hinitd hc z
  rw [channelCommands, runCommands_cons hiirp, runCommands_cons henupd]
  simp only [iirProcess_cfg, hx, hz]
  exact ⟨_, rfl⟩

/-- The commands of the channels below `n`, in ascending order, have the effect of the fan-out to them. -/
theorem runCommands_fanOut {s : State} {x : Word} {y : NumVal} {z : Nat → Word} (hinitd : s.initd = true)
    (hregs : regsValid s.cfg s.toRegs = true) (hx : s.num.dec x = y)
    (hz : ∀ c < s.nch, s.num.dec (z c) = cascadeOutput y s c) {n : Nat} (hn : n ≤ s.nch) :
    ∃ r, (runCommands ((List.range n).flatMap fun c => channelCommands x (z c) c) s).2 =
      { forChannels n (channelTick y) s with resp := r } := by
  induction n with
  | zero => exact ⟨s.resp, rfl⟩
  | succ n ih =>
    obtain ⟨r, hbelow⟩ := ih (Nat.le_of_succ_le hn)
    obtain ⟨_, ⟨hiir, _⟩, ⟨henw, _, hensum⟩, _⟩ := (regsValid_iff _ _).mp hregs
    obtain ⟨hframe, _⟩ := forChannels_channelTick_frame y n s
    have hsame := cascadeOutput_forChannels y n s (by omega) (by omega) (by omega)
    have hnum : (forChannels n (channelTick y) s).num = s.num := by rw [hframe]
    have hzn : (forChannels n (channelTick y) s).num.dec (z n) =
        cascadeOutput y (forChannels n (channelTick y) s) n := by
      rw [hnum, hsame, hz n hn]
    obtain ⟨r', hturn⟩ := runCommands_channelCommands (s := { forChannels n (channelTick y) s with resp := r })
      (c := n) (x := x) (y := y) (by rw [hframe]; exact hinitd) (by rw [hframe]; exact hn) (by rw [hnum, hx]) hzn
    refine ⟨r', ?_⟩
    rw [List.range_succ, List.flatMap_append, runCommands_append, hbelow, List.flatMap_singleton, hturn,
      forChannels_succ]
    rfl

/-- FIRP with `run`, then the commands of every channel on what it returns, have the effect of `FIR.process` and the
fan-out of its result. -/
theorem runCommands_components {s : State} {x : Word} {y : NumVal} {z : Nat → Word} (hinitd : s.initd = true)
    (hregs : regsValid s.cfg s.toRegs = true) (hfir : (firProcess (s.num.dec x) true s).1 = y)
    (hy : s.num.dec (s.num.enc y) = y) (hz : ∀ c < s.nch, s.num.dec (z c) = cascadeOutput y s c) :
    ∃ r, (runCommands (.firp x true ::
        (List.range s.nch).flatMap fun c => channelCommands (s.num.enc y) (z c) c) s).2 =
      { forChannels s.nch (channelTick y) (firProcess (s.num.dec x) true s).2 with resp := r } := by
  obtain ⟨r, hfan⟩ := runCommands_fanOut (s := { (firProcess (s.num.dec x) true s).2 with
    resp := some (okResponse false 0 [s.num.enc y]) }) hinitd (regsValid_firProcess _ true s hregs) hy hz le_rfl
  have hresp := forChannels_comm (body := channelTick y)
    (fun t => { t with resp := some (okResponse false 0 [s.num.enc y]) }) (fun _ _ => rfl) s.nch
    (firProcess (s.num.dec x) true s).2
  refine ⟨r, ?_⟩
  rw [runCommands_cons (exec_firp hinitd x true), hfir]
  exact hfan.trans (congrArg (fun t : State => { t with resp := r }) hresp)

/-- A decimation tick of ADDS is `FIR.process`, then the fan-out of its result, but for the counter (R155). -/
theorem addSample_run_components {x : NumVal} {s : State} (hrun : s.deccnt + 1 = s.cfg.decim) :
    (addSample x s).2 = { forChannels s.nch (channelTick (firProcess x true s).1) (firProcess x true s).2 with
      deccnt := 0 } := by
  rw [addSample_run hrun]
  exact forChannels_comm (fun t => { t with deccnt := 0 }) (fun _ _ => rfl) s.nch (firProcess x true s).2

/-- Settles O22: on a decimation tick the components fan out as ADDS does, on every other tick both only save. -/
theorem addsEqualsComponents : Obligations.AddsEqualsComponents := by
  unfold Obligations.AddsEqualsComponents
  intro x s t hinitd hwf hexec run y z fanOut hy hz
  obtain rfl := Host.Outcome.next.inj ((exec_adds hinitd x).symm.trans hexec)
  by_cases hrun : s.deccnt + 1 = s.cfg.decim
  · have hfir : (firProcess (s.num.dec x) true s).1 = y := by rw [← decide_eq_true hrun]
    obtain ⟨r, hcomponents⟩ := runCommands_components hinitd (wf_initd hwf hinitd).2 hfir hy
      (z := fun c => s.num.enc (z c)) hz
    change (runCommands (.firp x true :: fanOut) s).2 = _ at hcomponents
    rw [show run = true from decide_eq_true hrun, if_pos rfl, hcomponents, addSample_run_components hrun, hfir]
  · rw [show run = false from decide_eq_false hrun, if_neg Bool.false_ne_true, runCommands_cons (exec_firp hinitd x _),
      addSample_hold hrun]
    rfl

end Sys2Proof.Machine

namespace Sys2Proof

/-! ## The comparisons of finite values (R13) -/

/-- In `NUM_BINARY64` and `NUM_EXACT` both comparisons of finite values are those of the rationals they stand for. -/
theorem numOps_compare {n : NumInst} (hnamed : n ≠ .other) {a b : NumVal} (ha : (numOps n).finite a = true)
    (hb : (numOps n).finite b = true) :
    (numOps n).gt a b = decide (b.toRat < a.toRat) ∧ (numOps n).le a b = decide (a.toRat ≤ b.toRat) := by
  cases n with
  | other => exact absurd rfl hnamed
  | exact => exact ⟨rfl, rfl⟩
  | binary64 =>
    cases a with
    | inf | nan => exact absurd ha Bool.false_ne_true
    | rat | negZero =>
      cases b with
      | inf | nan => exact absurd hb Bool.false_ne_true
      | rat | negZero => exact ⟨rfl, rfl⟩

end Sys2Proof

namespace Sys2Proof.Machine

/-! ## The Hit Detector (R166 to R180) -/

/-! ### The registers' commands -/

/-- Settles O45: the bits at and above NCH decide, behind the `INITD` check. -/
theorem setchCommand : Obligations.SetchCommand := by
  unfold Obligations.SetchCommand
  refine fun m s => ⟨fun hinitd hbits => whenInit_guard_true hinitd ((maskValid_iff s m).mpr hbits),
    fun hinitd hbit => whenInit_guard_false hinitd ?_, fun hinitd => uninitialisedRefused _ s hinitd nofun⟩
  obtain ⟨c, hnch, hc, hset⟩ := hbit
  refine Bool.eq_false_of_not_eq_true fun hvalid => ?_
  exact Bool.false_ne_true (((maskValid_iff s m).mp hvalid c hnch hc).symm.trans hset)

/-- Settles O46: the factor's check is the conjunction of the two conditions. -/
theorem settfCommand : Obligations.SettfCommand := by
  unfold Obligations.SettfCommand
  refine fun f s => ⟨fun hinitd hfinite hgt => whenInit_guard_true hinitd ?_,
    fun hinitd hbad => whenInit_guard_false hinitd ?_, fun hinitd => uninitialisedRefused _ s hinitd nofun⟩
  · exact Bool.and_eq_true_iff.mpr ⟨hfinite, hgt⟩
  · exact Bool.and_eq_false_iff.mpr hbad

/-- Settles O47: none of the five checks an operand, so each is its body behind the `INITD` check. -/
theorem detectorRegisterCommands : Obligations.DetectorRegisterCommands := by
  unfold Obligations.DetectorRegisterCommands
  refine fun s => ⟨fun hinitd => ?_,
    fun hinitd => ⟨fun i hi => ?_, fun g => uninitialisedRefused _ s hinitd nofun⟩⟩
  · exact ⟨fun g => whenInit_true s _ hinitd, whenInit_true s _ hinitd, whenInit_true s _ hinitd,
      whenInit_true s _ hinitd, whenInit_true s _ hinitd⟩
  · refine uninitialisedRefused i s hinitd ?_
    rintro n rfl
    simp at hi

/-! ### CHK (R171) -/

theorem exec_chk_length {s : State} {ws : List Word} (hinitd : s.initd = true) (hlen : ws.length ≠ s.nch) :
    exec (.chk ws) s = .next { s with resp := some (errorResponse .errIllegal) } :=
  (whenInit_true s _ hinitd).trans (if_pos hlen)

/-- While a hit is latched or hits are ignored, CHK is a no-op. -/
theorem exec_chk_held {s : State} {ws : List Word} (hinitd : s.initd = true) (hlen : ws.length = s.nch)
    (hheld : s.hit = true ∨ s.ignore = true) :
    exec (.chk ws) s = .next { s with resp := some (okResponse false 0 []) } := by
  refine (whenInit_true s _ hinitd).trans ((if_neg (not_not.mpr hlen)).trans ?_)
  by_cases hhit : s.hit = true
  · exact if_pos hhit
  · exact (if_neg hhit).trans (if_pos (hheld.resolve_left hhit))

/-- From IDLE, CHK latches what the decision selects. -/
theorem exec_chk_idle {s : State} {ws : List Word} (hinitd : s.initd = true) (hlen : ws.length = s.nch)
    (hhit : s.hit = false) (hignore : s.ignore = false) :
    exec (.chk ws) s = .next { latch (decision s.num s.mask s.tf (ws.map s.num.dec)) s with
      resp := some (okResponse false 0 []) } := by
  refine (whenInit_true s _ hinitd).trans ((if_neg (not_not.mpr hlen)).trans ?_)
  rw [hhit, hignore]
  rfl

theorem exec_chk_none {s : State} {ws : List Word} (hinitd : s.initd = true) (hlen : ws.length = s.nch)
    (hhit : s.hit = false) (hignore : s.ignore = false)
    (hnone : decision s.num s.mask s.tf (ws.map s.num.dec) = none) :
    exec (.chk ws) s = .next { s with resp := some (okResponse false 0 []) } := by
  rw [exec_chk_idle hinitd hlen hhit hignore, hnone, latch_none]

theorem exec_chk_some {s : State} {ws : List Word} {b : Nat} (hinitd : s.initd = true) (hlen : ws.length = s.nch)
    (hhit : s.hit = false) (hignore : s.ignore = false)
    (hsome : decision s.num s.mask s.tf (ws.map s.num.dec) = some b) :
    exec (.chk ws) s = .next { s with hit := true, hitch := b, resp := some (okResponse false 0 []) } := by
  rw [exec_chk_idle hinitd hlen hhit hignore, hsome, latch_some]

/-- Settles O48: the `INITD` check comes first, then the length, then the latch and the flag. -/
theorem chkWithoutDecision : Obligations.ChkWithoutDecision := by
  unfold Obligations.ChkWithoutDecision
  exact fun ev s => ⟨exec_chk_held, exec_chk_length, fun hinitd => uninitialisedRefused _ s hinitd nofun⟩

/-- Settles O54: what the decision selects, specified or free, is enabled. -/
theorem emptyMaskNeverHits : Obligations.EmptyMaskNeverHits := by
  unfold Obligations.EmptyMaskNeverHits
  intro ws s hinitd hlen hmask
  by_cases hheld : s.hit = true ∨ s.ignore = true
  · exact exec_chk_held hinitd hlen hheld
  · obtain ⟨hhit, hignore⟩ := not_or.mp hheld
    refine exec_chk_none hinitd hlen (Bool.eq_false_of_not_eq_true hhit) (Bool.eq_false_of_not_eq_true hignore) ?_
    refine Option.eq_none_iff_forall_ne_some.mpr fun c hc => ?_
    have henabled := (decision_mem hc).2
    rw [hmask, BitVec.getLsbD_zero] at henabled
    exact Bool.false_ne_true henabled

/-! ### The state machine (R169) -/

section HitStates

variable {s u : State} {i : Instr}

/-- INIT of an initialised block is refused. -/
theorem Effect.eq_of_init {n : Nat} (h : Effect s (.init n) u) (hinitd : s.initd = true) : u = s := by
  cases h with
  | nothing => rfl
  | init _ huninit => exact absurd (huninit.symm.trans hinitd) Bool.false_ne_true

/-- Of the writers of `HIT` only CHK writes true. -/
theorem Effect.hit_set (h : Effect s i u) (hs : s.hit = false) (hu : u.hit = true) : ∃ ev, i = .chk ev := by
  cases h with
  | chk ev => exact ⟨ev, rfl⟩
  | init | clrhit | detrst => exact absurd hu Bool.false_ne_true
  | _ => exact absurd (hs.symm.trans hu) Bool.false_ne_true

/-- Of the writers of `HIT` only CLRHIT and DETRST write false in an initialised block. -/
theorem Effect.hit_cleared (h : Effect s i u) (hinitd : s.initd = true) (hs : s.hit = true) (hu : u.hit = false) :
    i = .clrhit ∨ i = .detrst := by
  cases h with
  | clrhit => exact .inl rfl
  | detrst => exact .inr rfl
  | init _ huninit => exact absurd (huninit.symm.trans hinitd) Bool.false_ne_true
  | chk => exact absurd hu.symm Bool.false_ne_true
  | _ => exact absurd (hu.symm.trans hs) Bool.false_ne_true

/-- A CHK while a hit is latched or hits are ignored writes no register, whatever its length. -/
theorem toRegs_chk_held {s t : State} {ws : List Word} (hinitd : s.initd = true)
    (hheld : s.hit = true ∨ s.ignore = true) (hexec : exec (.chk ws) s = .next t) : t.toRegs = s.toRegs := by
  by_cases hlen : ws.length = s.nch
  · obtain rfl := Host.Outcome.next.inj ((exec_chk_held hinitd hlen hheld).symm.trans hexec)
    rfl
  · obtain rfl := Host.Outcome.next.inj ((exec_chk_length hinitd hlen).symm.trans hexec)
    rfl

end HitStates

/-- Settles O52: the writers of `HIT` and `HITCH`, and that CHK writes neither while a hit is latched or ignored. -/
theorem hitStateMachine : Obligations.HitStateMachine := by
  unfold Obligations.HitStateMachine
  intro i s t hinitd hexec
  obtain ⟨u, r, heffect, rfl⟩ := effect_of_exec hexec
  refine ⟨fun hs hu => ?_, heffect.hit_cleared hinitd, ?_, fun hne => ?_⟩
  · obtain ⟨ev, rfl⟩ := heffect.hit_set hs hu
    refine ⟨⟨ev, rfl⟩, Bool.eq_false_of_not_eq_true fun hignore => ?_⟩
    have hregs := toRegs_chk_held hinitd (.inr hignore) hexec
    exact Bool.false_ne_true (hs.symm.trans ((congrArg Regs.hit hregs).symm.trans hu))
  · rintro hs ⟨ev, rfl⟩
    exact toRegs_chk_held hinitd (.inl hs) hexec
  · refine (heffect.hitch_writer hne).resolve_left ?_
    rintro ⟨n, rfl⟩
    obtain rfl := heffect.eq_of_init hinitd
    exact hne rfl

/-! ### The sort and the median (R176) -/

/-- Inserting keeps a list in the order of the rationals, where `le` compares by them. -/
theorem insertByLe_pairwise {le : NumVal → NumVal → Bool} {v : NumVal} {l : List NumVal}
    (hle : ∀ w ∈ l, le v w = decide (v.toRat ≤ w.toRat)) (hsorted : l.Pairwise fun a b => a.toRat ≤ b.toRat) :
    (insertByLe le v l).Pairwise fun a b => a.toRat ≤ b.toRat := by
  induction l with
  | nil => exact List.pairwise_singleton _ v
  | cons w rest ih =>
    obtain ⟨hw, hrest⟩ := List.pairwise_cons.mp hsorted
    rw [insertByLe, hle w List.mem_cons_self]
    by_cases hvw : v.toRat ≤ w.toRat
    · rw [if_pos (decide_eq_true hvw)]
      exact List.pairwise_cons.mpr ⟨List.forall_mem_cons.mpr ⟨hvw, fun a ha => hvw.trans (hw a ha)⟩, hsorted⟩
    · rw [if_neg (by simpa using hvw)]
      refine List.pairwise_cons.mpr ⟨fun a ha => ?_, ih (fun b hb => hle b (List.mem_cons_of_mem w hb)) hrest⟩
      obtain rfl | ha := List.mem_cons.mp ((insertByLe_perm le v rest).mem_iff.mp ha)
      · exact (lt_of_not_ge hvw).le
      · exact hw a ha

theorem sortByLe_pairwise {le : NumVal → NumVal → Bool} {l : List NumVal}
    (hle : ∀ a ∈ l, ∀ b ∈ l, le a b = decide (a.toRat ≤ b.toRat)) :
    (sortByLe le l).Pairwise fun a b => a.toRat ≤ b.toRat := by
  induction l with
  | nil => exact List.Pairwise.nil
  | cons v rest ih =>
    refine insertByLe_pairwise (fun w hw => ?_) (ih fun a ha b hb => ?_)
    · exact hle v List.mem_cons_self w (List.mem_cons_of_mem v ((sortByLe_perm le rest).mem_iff.mp hw))
    · exact hle a (List.mem_cons_of_mem v ha) b (List.mem_cons_of_mem v hb)

/-- Settles O50: the arrangement is the model's own sort. -/
theorem medianIsLowerMiddle : Obligations.MedianIsLowerMiddle := by
  unfold Obligations.MedianIsLowerMiddle
  intro n ev hnamed hfinite
  have hle : ∀ a ∈ ev, ∀ b ∈ ev, (numOps n).le a b = decide (a.toRat ≤ b.toRat) :=
    fun a ha b hb => (numOps_compare hnamed (hfinite a ha) (hfinite b hb)).2
  have hperm := sortByLe_perm (numOps n).le ev
  refine ⟨sortByLe (numOps n).le ev, hperm, (sortByLe_pairwise hle).imp_of_mem fun ha hb hab => ?_, rfl⟩
  rw [hle _ (hperm.mem_iff.mp ha) _ (hperm.mem_iff.mp hb)]
  exact decide_eq_true hab

/-- The median of a vector that is not empty is one of its values. -/
theorem median_mem (N : NumOps) {ev : List NumVal} (hne : ev ≠ []) : median N ev ∈ ev := by
  have hpos := List.length_pos_iff.mpr hne
  exact (sortByLe_perm N.le ev).mem_iff.mp (getD_mem (by rw [sortByLe_length]; omega))

/-! ### The scan (R177) -/

/-- What R177's loop has found once it has looked at the channels below `k`: nothing where none of them is above the
threshold, else the one of greatest energy among those that are, the lowest index among equals. -/
def ScanFound (N : NumOps) (mask : Word) (thr : NumVal) (ev : List NumVal) (k : Nat) : Option Nat → Prop
  | none => ∀ c < k, exceeds N mask thr ev c = false
  | some b => b < k ∧ exceeds N mask thr ev b = true ∧
      (∀ c < k, exceeds N mask thr ev c = true → N.gt (ev.getD c N.zero) (ev.getD b N.zero) = false) ∧
      ∀ c < b, exceeds N mask thr ev c = true → N.gt (ev.getD b N.zero) (ev.getD c N.zero) = true

section Scan

variable {N : NumOps} {mask : Word} {thr : NumVal} {ev : List NumVal}

theorem scanStep_of_not_exceeds {c : Nat} (hc : exceeds N mask thr ev c = false) (best : Option Nat) :
    scanStep N mask thr ev best c = best :=
  if_neg fun h => Bool.false_ne_true (hc.symm.trans h)

theorem scanStep_none {c : Nat} (hc : exceeds N mask thr ev c = true) :
    scanStep N mask thr ev none c = some c :=
  if_pos hc

theorem scanStep_some {b c : Nat} (hc : exceeds N mask thr ev c = true) :
    scanStep N mask thr ev (some b) c =
      if N.gt (ev.getD c N.zero) (ev.getD b N.zero) then some c else some b :=
  if_pos hc

/-- One turn of the loop, where the comparison of two energies is that of the rationals they stand for. -/
theorem ScanFound.step (hgt : ∀ a ∈ ev, ∀ b ∈ ev, N.gt a b = decide (b.toRat < a.toRat)) {k : Nat}
    (hk : k < ev.length) {best : Option Nat} (h : ScanFound N mask thr ev k best) :
    ScanFound N mask thr ev (k + 1) (scanStep N mask thr ev best k) := by
  have hcompare {c d : Nat} (hc : c ≤ k) (hd : d ≤ k) : N.gt (ev.getD c N.zero) (ev.getD d N.zero) =
      decide ((ev.getD d N.zero).toRat < (ev.getD c N.zero).toRat) :=
    hgt _ (getD_mem (hc.trans_lt hk)) _ (getD_mem (hd.trans_lt hk))
  have hself : N.gt (ev.getD k N.zero) (ev.getD k N.zero) = false := by
    rw [hcompare le_rfl le_rfl, decide_eq_false (lt_irrefl _)]
  cases hexceeds : exceeds N mask thr ev k with
  | false =>
    rw [scanStep_of_not_exceeds hexceeds]
    cases best with
    | none => exact Nat.forall_lt_succ_right.mpr ⟨h, hexceeds⟩
    | some b =>
      obtain ⟨hb, hbexceeds, hgreatest, hlowest⟩ := h
      refine ⟨hb.trans k.lt_succ_self, hbexceeds, Nat.forall_lt_succ_right.mpr ⟨hgreatest, fun hk' => ?_⟩, hlowest⟩
      exact absurd (hexceeds.symm.trans hk') Bool.false_ne_true
  | true =>
    cases best with
    | none =>
      have hnone (c : Nat) (hc : c < k) (hcexceeds : exceeds N mask thr ev c = true) : False :=
        Bool.false_ne_true ((h c hc).symm.trans hcexceeds)
      rw [scanStep_none hexceeds]
      exact ⟨k.lt_succ_self, hexceeds,
        Nat.forall_lt_succ_right.mpr ⟨fun c hc hc' => (hnone c hc hc').elim, fun _ => hself⟩,
        fun c hc hc' => (hnone c hc hc').elim⟩
    | some b =>
      obtain ⟨hb, hbexceeds, hgreatest, hlowest⟩ := h
      rw [scanStep_some hexceeds]
      cases hmore : N.gt (ev.getD k N.zero) (ev.getD b N.zero) with
      | false =>
        exact ⟨hb.trans k.lt_succ_self, hbexceeds,
          Nat.forall_lt_succ_right.mpr ⟨hgreatest, fun _ => hmore⟩, hlowest⟩
      | true =>
        have hlower (c : Nat) (hc : c < k) (hcexceeds : exceeds N mask thr ev c = true) :
            (ev.getD c N.zero).toRat < (ev.getD k N.zero).toRat := by
          have hcb := hgreatest c hc hcexceeds
          rw [hcompare hc.le hb.le, decide_eq_false_iff_not] at hcb
          rw [hcompare le_rfl hb.le, decide_eq_true_iff] at hmore
          exact (le_of_not_gt hcb).trans_lt hmore
        refine ⟨k.lt_succ_self, hexceeds, Nat.forall_lt_succ_right.mpr ⟨fun c hc hc' => ?_, fun _ => hself⟩,
          fun c hc hc' => ?_⟩
        · rw [hcompare hc.le le_rfl, decide_eq_false (hlower c hc hc').not_gt]
        · rw [hcompare le_rfl hc.le, decide_eq_true (hlower c hc hc')]

/-- The whole scan. -/
theorem scanFound_scan (hgt : ∀ a ∈ ev, ∀ b ∈ ev, N.gt a b = decide (b.toRat < a.toRat)) :
    ScanFound N mask thr ev ev.length (scan N mask thr ev) := by
  have hloop : ∀ k ≤ ev.length,
      ScanFound N mask thr ev k ((List.range k).foldl (scanStep N mask thr ev) none) := by
    intro k
    induction k with
    | zero => exact fun _ c hc => absurd hc c.not_lt_zero
    | succ k ih =>
      intro hk
      rw [List.range_succ, List.foldl_concat]
      exact (ih (Nat.le_of_succ_le hk)).step hgt hk
  exact hloop ev.length le_rfl

end Scan

/-- Settles O49: finite values have the decision of the scan, and the scan compares them as rationals. -/
theorem chkLatchesGreatest : Obligations.ChkLatchesGreatest := by
  unfold Obligations.ChkLatchesGreatest
  intro ws s hnamed hinitd hlen hhit hignore ev thr e above hfinite hthr
  have hdecision : decision s.num s.mask s.tf ev = scan s.num s.mask thr ev :=
    if_pos (Bool.and_eq_true_iff.mpr ⟨List.all_eq_true.mpr hfinite, hthr⟩)
  have habove (c : Nat) : exceeds s.num s.mask thr ev c = true ↔ above c := Bool.and_eq_true_iff
  have hfound : ScanFound s.num s.mask thr ev s.nch (scan s.num s.mask thr ev) := by
    rw [← hlen, ← List.length_map s.num.dec]
    exact scanFound_scan fun a ha b hb => (numOps_compare hnamed (hfinite a ha) (hfinite b hb)).1
  simp only [← habove]
  cases hscan : scan s.num s.mask thr ev with
  | none =>
    rw [hscan] at hfound
    refine .inl ⟨fun c hc => ?_, exec_chk_none hinitd hlen hhit hignore (hdecision.trans hscan)⟩
    rw [hfound c hc]
    exact Bool.false_ne_true
  | some b =>
    rw [hscan] at hfound
    obtain ⟨hb, hexceeds, hgreatest, hlowest⟩ := hfound
    exact .inr ⟨b, hb, hexceeds, hgreatest, hlowest,
      exec_chk_some hinitd hlen hhit hignore (hdecision.trans hscan)⟩

/-! ### Flat vectors (R178 (b)) -/

section FlatVector

variable {ev : List NumVal} {v : Rat}

theorem threshold_flat (hne : ev ≠ []) (hflat : ∀ a ∈ ev, a = .rat v) (tf : NumVal) :
    threshold numExact tf ev = .rat (v * tf.toRat) := by
  rw [threshold, hflat _ (median_mem numExact hne)]
  rfl

/-- In `NUM_EXACT` everything is finite, so every decision is the scan's. -/
theorem decision_exact (mask : Word) (tf : NumVal) (ev : List NumVal) :
    decision numExact mask tf ev = scan numExact mask (threshold numExact tf ev) ev :=
  if_pos (Bool.and_eq_true_iff.mpr ⟨List.all_eq_true.mpr fun _ _ => rfl, rfl⟩)

/-- A channel of a flat vector is above the threshold where it is enabled and `v` is above `v` times the factor. -/
theorem exceeds_flat (hne : ev ≠ []) (hflat : ∀ a ∈ ev, a = .rat v) (mask : Word) (tf : NumVal) {c : Nat}
    (hc : c < ev.length) : exceeds numExact mask (threshold numExact tf ev) ev c =
      (mask.getLsbD c && decide (v * tf.toRat < v)) := by
  rw [exceeds, threshold_flat hne hflat, hflat _ (getD_mem hc)]
  rfl

theorem decision_flat_none (hne : ev ≠ []) (hflat : ∀ a ∈ ev, a = .rat v) (mask : Word) {tf : NumVal}
    (hv : v ≤ v * tf.toRat) : decision numExact mask tf ev = none := by
  rw [decision_exact]
  refine scan_none fun c hc => ?_
  rw [exceeds_flat hne hflat mask tf hc, decide_eq_false hv.not_gt, Bool.and_false]

/-- No energy of a flat vector is above another, so the scan's choice is the lowest enabled channel. -/
theorem decision_flat_some (hne : ev ≠ []) (hflat : ∀ a ∈ ev, a = .rat v) {mask : Word} {tf : NumVal} {b : Nat}
    (hv : v * tf.toRat < v) (hb : b < ev.length) (henabled : mask.getLsbD b = true)
    (hlowest : ∀ c < b, mask.getLsbD c = false) : decision numExact mask tf ev = some b := by
  have hexceeds {c : Nat} (hc : c < ev.length) :
      exceeds numExact mask (threshold numExact tf ev) ev c = mask.getLsbD c := by
    rw [exceeds_flat hne hflat mask tf hc, decide_eq_true hv, Bool.and_true]
  have hfound : ScanFound numExact mask (threshold numExact tf ev) ev ev.length _ := scanFound_scan fun _ _ _ _ => rfl
  rw [decision_exact]
  cases hscan : scan numExact mask (threshold numExact tf ev) ev with
  | none =>
    rw [hscan] at hfound
    exact absurd ((hfound b hb).symm.trans ((hexceeds hb).trans henabled)) Bool.false_ne_true
  | some c =>
    rw [hscan] at hfound
    obtain ⟨hc, hcexceeds, _, hbelow⟩ := hfound
    obtain hcb | rfl | hbc := Nat.lt_trichotomy c b
    · exact absurd ((hlowest c hcb).symm.trans ((hexceeds hc).symm.trans hcexceeds)) Bool.false_ne_true
    · rfl
    · have hgreater := hbelow b hbc ((hexceeds hb).trans henabled)
      rw [hflat _ (getD_mem hb), hflat _ (getD_mem hc)] at hgreater
      exact absurd (of_decide_eq_true hgreater) (lt_irrefl v)

end FlatVector

/-- Settles O55: the threshold is `v` times the factor, so every enabled channel is above it or none is. -/
theorem flatVectorDecision : Obligations.FlatVectorDecision := by
  unfold Obligations.FlatVectorDecision
  intro ws s v hx hinitd hlen hne hhit hignore hwords
  have hne' : ws.map s.num.dec ≠ [] := List.map_eq_nil_iff.not.mpr hne
  have hlen' : (ws.map s.num.dec).length = s.nch := (List.length_map _).trans hlen
  have hflat : ∀ a ∈ ws.map s.num.dec, a = .rat v := List.forall_mem_map.mpr hwords
  have hnum := State.num_exact hx
  refine ⟨fun hcase => exec_chk_none hinitd hlen hhit hignore ?_,
    fun b hb hfactor hv henabled hlowest => exec_chk_some hinitd hlen hhit hignore ?_⟩
  · have habove : v ≤ v * s.tf.toRat := by
      obtain ⟨hfactor, hv⟩ | rfl := hcase
      · exact le_mul_of_one_le_right hv hfactor
      · rw [zero_mul]
    rw [hnum] at hne' hflat ⊢
    exact decision_flat_none hne' hflat s.mask habove
  · have hbelow : v * s.tf.toRat < v := mul_lt_of_lt_one_right hv hfactor
    rw [← hlen'] at hb
    rw [hnum] at hne' hflat hb ⊢
    exact decision_flat_some hne' hflat hbelow hb henabled hlowest

/-! ### The source's worked example (R180) -/

/-- The energies of R180. -/
def sourceEnergies : List NumVal := [16, 11, 71, 12, 14, 18, 57, 10, 19, 13].map NumVal.rat

/-- The two thresholds, and what the scan finds above them with channel 2 disabled and enabled. -/
theorem decision_sourceEnergies {n : NumInst} (hnamed : n ≠ .other) :
    decision (numOps n) 0x3FB#64 (.rat 4) sourceEnergies = some 6 ∧
    decision (numOps n) 0x3FF#64 (.rat 4) sourceEnergies = some 2 ∧
    decision (numOps n) 0x3FB#64 (.rat 5) sourceEnergies = none := by
  cases n with
  | other => exact absurd rfl hnamed
  | binary64 | exact => decide +kernel

/-- Settles O53: the words are the patterns of R180's energies, and the decision on those is computed. -/
theorem sourceDetectorExample : Obligations.SourceDetectorExample := by
  unfold Obligations.SourceDetectorExample
  intro s hnamed hinitd hnch hhit hignore ev8
  have hdec : ev8.map s.num.dec = sourceEnergies := by
    rw [State.num]
    cases hnum : s.cfg.num with
    | other => exact absurd hnum hnamed
    | binary64 | exact => decide +kernel
  obtain ⟨hsix, htwo, hnone⟩ := decision_sourceEnergies hnamed
  refine ⟨fun hmask htf => exec_chk_some hinitd hnch.symm hhit hignore ?_,
    fun hmask htf => exec_chk_some hinitd hnch.symm hhit hignore ?_,
    fun hmask htf => exec_chk_none hinitd hnch.symm hhit hignore ?_⟩ <;> rw [hdec, hmask, htf]
  exacts [hsix, htwo, hnone]

end Sys2Proof.Machine

namespace Sys2Proof.Machine

/-! ## Responses and errors (R191 to R196, R205) -/

/-- Settles O10: with no event to take, `step` is its first branch. -/
theorem idleStepHolds : Obligations.IdleStepHolds := by
  unfold Obligations.IdleStepHolds
  intro s hport
  exact step_nil hport

/-- Which command, once decoded, may be refused with which status: the entries of R193's table, and CHK's length (R171). -/
inductive MayRaise : Instr → Status → Prop
  | uninit {i : Instr} (hinit : ∀ n, i ≠ .init n) : MayRaise i .errUninit
  | getfirc (k : Nat) : MayRaise (.getfirc k) .errRange
  | iirp (c : Nat) (x : Word) : MayRaise (.iirp c x) .errRange
  | iirrst (c : Nat) : MayRaise (.iirrst c) .errRange
  | getsosc (c j : Nat) : MayRaise (.getsosc c j) .errRange
  | enupd (c : Nat) (x : Word) : MayRaise (.enupd c x) .errRange
  | geten (c : Nat) : MayRaise (.geten c) .errRange
  | init (n : Nat) : MayRaise (.init n) .errConfig
  | setch (m : Word) : MayRaise (.setch m) .errConfig
  | settf (f : Word) : MayRaise (.settf f) .errConfig
  | chkLength (ev : List Word) : MayRaise (.chk ev) .errIllegal

/-- How command `i` may end in `s`: with OK in any state, or refused in `s` itself with a status of its own. -/
inductive Ends (s : State) (i : Instr) : Result → Prop
  | ok (b : Bool) (n : Nat) (p : List Word) (u : State) : Ends s i (respond b n p u)
  | refused {st : Status} (hraise : MayRaise i st) : Ends s i (raise st s)

theorem ends_guard {s : State} {i : Instr} {g : Bool} {body : Result} {st : Status} (hraise : MayRaise i st)
    (hbody : Ends s i body) : Ends s i (if g then body else raise st s) := by
  split
  · exact hbody
  · exact .refused hraise

/-- The `INITD` check is a guard too, and every command but INIT has it. -/
theorem ends_whenInit {s : State} {i : Instr} {body : Result} (hinit : ∀ n, i ≠ .init n) (hbody : Ends s i body) :
    Ends s i (whenInit s body) :=
  ends_guard (.uninit hinit) hbody

theorem ends_execInit (n : Nat) (s : State) : Ends s (.init n) (execInit n s) := by
  unfold execInit
  split
  · exact .refused (.init n)
  · exact ends_guard (.init n) (.ok ..)

theorem ends_execChk (ev : List Word) (s : State) : Ends s (.chk ev) (execChk ev s) := by
  refine ends_whenInit nofun ?_
  split
  · exact .refused (.chkLength ev)
  · split
    · exact .ok ..
    · split <;> exact .ok ..

theorem ends_exec (i : Instr) (s : State) : Ends s i (exec i s) := by
  cases i with
  | init n => exact ends_execInit n s
  | chk ev => exact ends_execChk ev s
  | getfirc k => exact ends_whenInit nofun (ends_guard (.getfirc k) (.ok ..))
  | iirp c x => exact ends_whenInit nofun (ends_guard (.iirp c x) (.ok ..))
  | iirrst c => exact ends_whenInit nofun (ends_guard (.iirrst c) (.ok ..))
  | getsosc c j => exact ends_whenInit nofun (ends_guard (.getsosc c j) (.ok ..))
  | enupd c x => exact ends_whenInit nofun (ends_guard (.enupd c x) (.ok ..))
  | geten c => exact ends_whenInit nofun (ends_guard (.geten c) (.ok ..))
  | setch m => exact ends_whenInit nofun (ends_guard (.setch m) (.ok ..))
  | settf f => exact ends_whenInit nofun (ends_guard (.settf f) (.ok ..))
  | reset | adds | firp | firrst | getfirn | iirrsta | getsoss | getsosn | getena | enrsta | ign | gethit | gethitch
  | clrhit | detrst => exact ends_whenInit nofun (.ok ..)

/-- An error response is one of the command's own, and the only thing it leaves. -/
theorem exec_refused {s t : State} {i : Instr} {r : Response} (hexec : exec i s = .next t) (hresp : t.resp = some r)
    (herr : r.st ≠ .ok) : MayRaise i r.st ∧ t = { s with resp := some (errorResponse r.st) } := by
  have hends := ends_exec i s
  rw [hexec] at hends
  cases hends with
  | ok b n p u =>
    obtain rfl := Option.some.inj hresp
    exact absurd rfl herr
  | refused hraise =>
    obtain rfl := Option.some.inj hresp
    exact ⟨hraise, rfl⟩

/-- Settles O12: a command is refused in the state it began in, which for a step is the state with the transaction
taken; a transaction that is no command is refused there too. -/
theorem errorChangesNothing : Obligations.ErrorChangesNothing := by
  unfold Obligations.ErrorChangesNothing
  refine ⟨fun i s t r hexec hresp herr => (exec_refused hexec hresp herr).2, ?_⟩
  intro s t h p rest r hport hstep hresp herr
  cases hdec : decode (vecLen s) h p with
  | error e =>
    rw [step_illegal hport hdec, takePort_of_port hport] at hstep
    obtain rfl := Host.Outcome.next.inj hstep
    obtain rfl := Option.some.inj hresp
    rfl
  | ok i =>
    rw [step_command hport hdec, takePort_of_port hport] at hstep
    exact (exec_refused hstep hresp herr).2

/-- Settles O14: the status is one of the command's row in `MayRaise`. -/
theorem statusOwners : Obligations.StatusOwners := by
  unfold Obligations.StatusOwners
  intro i s t r hexec hresp
  have hraise {st : Status} (hst : r.st = st) (hne : st ≠ .ok) : MayRaise i st :=
    hst ▸ (exec_refused hexec hresp (hst ▸ hne)).1
  refine ⟨fun hst => ?uninit, fun hst => ?range, fun hst => ?config, fun hst => ?illegal⟩
  case uninit =>
    cases hraise hst nofun with
    | uninit hinit => exact hinit
  case range =>
    cases hraise hst nofun with
    | getfirc k => exact .inl ⟨k, rfl⟩
    | iirp c x => exact .inr (.inl ⟨c, x, rfl⟩)
    | iirrst c => exact .inr (.inr (.inl ⟨c, rfl⟩))
    | getsosc c j => exact .inr (.inr (.inr (.inl ⟨c, j, rfl⟩)))
    | enupd c x => exact .inr (.inr (.inr (.inr (.inl ⟨c, x, rfl⟩))))
    | geten c => exact .inr (.inr (.inr (.inr (.inr ⟨c, rfl⟩))))
  case config =>
    cases hraise hst nofun with
    | init n => exact .inl ⟨n, rfl⟩
    | setch m => exact .inr (.inl ⟨m, rfl⟩)
    | settf f => exact .inr (.inr ⟨f, rfl⟩)
  case illegal =>
    cases hraise hst nofun with
    | chkLength ev => exact ⟨ev, rfl⟩

end Sys2Proof.Machine

namespace Sys2Proof.Machine

/-! ## HWRESET, INIT and the resets (R215, R218) -/

/-- Settles O9: taking the event and `hwReset`, field by field. -/
theorem hwResetEvent : Obligations.HwResetEvent := by
  unfold Obligations.HwResetEvent
  intro s rest hport
  refine ⟨hwReset (takePort s), step_hwReset hport, rfl, rfl, rfl, ?_⟩
  rw [hwReset_port, takePort_port, hport, List.tail_cons]

/-! ### The state right after reset -/

theorem isFinite_b64OfMagnitude (neg : Bool) {m : Nat} (hm : m < b64InfMagnitude) :
    (b64OfMagnitude neg m).isFinite = true := by
  rw [b64OfMagnitude, if_neg hm.not_ge]
  by_cases hzero : m = 0
  · cases neg <;> simp [hzero, NumVal.isFinite]
  · simp [hzero, NumVal.isFinite]

theorem isFinite_numOfFiniteBits (b : FiniteBits) : (numOfFiniteBits b).isFinite = true :=
  isFinite_b64OfMagnitude b.neg b.magnitude.isLt

theorem b64Gt_b64OfMagnitude_zero {m : Nat} (hpos : m ≠ 0) (hm : m < b64InfMagnitude) :
    b64Gt (b64OfMagnitude false m) (.rat 0) = true := by
  rw [b64OfMagnitude, if_neg hm.not_ge, if_neg hpos]
  exact decide_eq_true (b64Value_pos hpos)

/-- The parameters of log 2 are within R8's bounds. -/
theorem configValid_resetConfig : configValid resetConfig = true := by
  have htf : Config.tfResetLess1.val + 1 < b64InfMagnitude := by
    have := Config.tfResetLess1.isLt
    simp only [b64InfMagnitude]
    omega
  have htaps : resetConfig.firTaps ≤ 65535 := Config.firTapsLess1.isLt
  have hsections : resetConfig.iirSections ≤ 13107 := Config.iirSectionsLess1.isLt
  have hfirCoef : ∀ v ∈ resetConfig.firCoef, numBinary64.finite v = true := by
    simp only [resetConfig, List.forall_mem_map]
    exact fun i _ => isFinite_numOfFiniteBits _
  have hsosCoef : ∀ row ∈ resetConfig.sosCoef,
      row.length = resetConfig.iirSections ∧ ∀ q ∈ row, sosFinite numBinary64 q = true := by
    simp only [resetConfig, List.forall_mem_map]
    refine fun c _ => ⟨by simp, fun s _ => ?_⟩
    simp [sosFinite, numBinary64, isFinite_numOfFiniteBits]
  simp only [configValid, Bool.and_eq_true, decide_eq_true_eq, List.all_eq_true, and_assoc]
  refine ⟨by decide, by decide, by decide, Nat.le_add_left .., htaps, ?firCount, hfirCoef, Nat.le_add_left ..,
    hsections, ?rowCount, hsosCoef, by decide, ?tfFinite, ?tfPositive, by decide⟩
  case firCount => simp [resetConfig]
  case rowCount => simp [resetConfig]
  case tfFinite => exact isFinite_b64OfMagnitude false htf
  case tfPositive => exact b64Gt_b64OfMagnitude_zero (Nat.succ_ne_zero _) htf

/-- Settles O57: before INIT a state is good where its parameters are. -/
theorem resetStateGood : Obligations.ResetStateGood := by
  unfold Obligations.ResetStateGood
  exact ⟨wf_of_regsValid configValid_resetConfig nofun, rfl⟩

/-! ### Two blocks before INIT -/

/-- What an uninitialised block does not accept it refuses, with a status that the command alone decides. -/
theorem exec_uninit_refused (i : Instr) : ∃ st, ∀ s : State, s.initd = false →
    (∀ n, i = .init n → countValid s n = false) →
    exec i s = .next { s with resp := some (errorResponse st) } := by
  cases i with
  | init n => exact ⟨.errConfig, fun s _ hn => exec_init_refused (.inr (hn n rfl))⟩
  | _ => exact ⟨.errUninit, fun s hs _ => uninitialisedRefused _ s hs nofun⟩

/-- Settles O15: INIT's check of the count and the registers it writes are functions of the parameters, and every other
outcome is a refusal. -/
theorem uninitialisedUnobservable : Obligations.UninitialisedUnobservable := by
  unfold Obligations.UninitialisedUnobservable
  intro i s u t v hs hu hcfg ht hv
  have hcount (n : Nat) : countValid u n = countValid s n := by rw [countValid, countValid, hcfg]
  by_cases haccepted : ∃ n, i = .init n ∧ countValid s n = true
  · obtain ⟨n, rfl, hn⟩ := haccepted
    obtain rfl := Host.Outcome.next.inj ((exec_init_accepted hs hn).symm.trans ht)
    obtain rfl := Host.Outcome.next.inj ((exec_init_accepted hu ((hcount n).trans hn)).symm.trans hv)
    exact ⟨rfl, rfl, fun _ => congrArg (initRegs · n) hcfg⟩
  · have hbad (n : Nat) (hi : i = .init n) : countValid s n = false :=
      Bool.eq_false_of_not_eq_true fun hn => haccepted ⟨n, hi, hn⟩
    obtain ⟨st, hrefused⟩ := exec_uninit_refused i
    obtain rfl := Host.Outcome.next.inj ((hrefused s hs hbad).symm.trans ht)
    obtain rfl := Host.Outcome.next.inj
      ((hrefused u hu fun n hi => (hcount n).trans (hbad n hi)).symm.trans hv)
    exact ⟨rfl, hs.trans hu.symm, fun h => absurd (hs.symm.trans h) Bool.false_ne_true⟩

/-! ### CHK where its decision is not specified -/

/-- Settles O51: the free selection too is filtered to the enabled channels of the vector. -/
theorem chkUnspecifiedStaysInBounds : Obligations.ChkUnspecifiedStaysInBounds := by
  unfold Obligations.ChkUnspecifiedStaysInBounds
  intro ws s hinitd hlen hhit hignore _
  cases hdecision : decision s.num s.mask s.tf (ws.map s.num.dec) with
  | none => exact .inl (exec_chk_none hinitd hlen hhit hignore hdecision)
  | some b =>
    obtain ⟨hb, henabled⟩ := decision_mem hdecision
    rw [List.length_map, hlen] at hb
    exact .inr ⟨b, hb, henabled, exec_chk_some hinitd hlen hhit hignore hdecision⟩

/-! ### What a family of commands does not see -/

/-- The state with this response. -/
def answered (r : Response) (s : State) : State := { s with resp := some r }

/-- The two results are one response, in a state and in what `view` shows of that state. -/
def SameAnswer (view : State → State) (res viewed : Result) : Prop :=
  ∃ u r, res = .next (answered r u) ∧ viewed = .next (answered r (view u))

/-- Command `i` uses only what `view` shows: run on the view it has the same response, and leaves the same view. -/
def SeesOnly (view : State → State) (i : Instr) : Prop := ∀ s, SameAnswer view (exec i s) (exec i (view s))

section Views

variable {view : State → State} {s u v : State} {a a' b b' : Result}

theorem sameAnswer_respond (f : Bool) (n : Nat) (p : List Word) (hv : v = view u) :
    SameAnswer view (respond f n p u) (respond f n p v) := ⟨u, okResponse f n p, rfl, by rw [hv]; rfl⟩

theorem sameAnswer_raise (st : Status) (s : State) : SameAnswer view (raise st s) (raise st (view s)) :=
  ⟨s, errorResponse st, rfl, rfl⟩

/-- A check that the state and its view decide alike. -/
theorem sameAnswer_ite {p : Prop} [Decidable p] (ha : SameAnswer view a a') (hb : SameAnswer view b b') :
    SameAnswer view (if p then a else b) (if p then a' else b') := by
  split
  · exact ha
  · exact hb

theorem sameAnswer_whenInit (hinitd : (view s).initd = s.initd) (ha : SameAnswer view a a') :
    SameAnswer view (whenInit s a) (whenInit (view s) a') := by
  rw [whenInit, whenInit, hinitd]
  exact sameAnswer_ite ha (sameAnswer_raise .errUninit s)

/-- A view that leaves out the response before: commands that use only what it shows answer alike on it. -/
theorem runCommands_view (hresp : ∀ r s, view (answered r s) = view s) (hidem : ∀ s, view (view s) = view s)
    {is : List Instr} (his : ∀ i ∈ is, SeesOnly view i) (s : State) :
    (runCommands is (view s)).1 = (runCommands is s).1 := by
  induction is generalizing s with
  | nil => rfl
  | cons i is ih =>
    obtain ⟨hi, his⟩ := List.forall_mem_cons.mp his
    obtain ⟨t, r, hexec, hviewed⟩ := hi s
    have hrest : (runCommands is (answered r (view t))).1 = (runCommands is (answered r t)).1 := by
      rw [← ih his (answered r (view t)), ← ih his (answered r t), hresp, hresp, hidem]
    rw [runCommands_cons hexec, runCommands_cons hviewed, hrest]
    rfl

end Views

/-! ### The filters do not see the detector, nor the detector the filters (R150, R165) -/

/-- The state without the detector's registers, the port and the response. -/
def filterView (s : State) : State := { s with
  mask := 0#64, tf := .rat 0, ignore := false, hit := false, hitch := 0, port := [], resp := none, hwresets := 0 }

/-- The state without the filters' registers and stores, the port and the response. -/
def detectorView (s : State) : State := { s with
  deccnt := 0, firh := ⟨[]⟩, iir := [], enw := [], ensum := [], port := [], resp := none, hwresets := 0 }

theorem pipelineReset_filterView (s : State) : pipelineReset (filterView s) = filterView (pipelineReset s) :=
  congrArg (fun t : State => { t with deccnt := 0 })
    (forChannels_comm (body := resetChannel) filterView (fun _ _ => rfl) s.nch (firReset s))

theorem addSample_filterView (x : NumVal) (s : State) :
    (addSample x (filterView s)).2 = filterView (addSample x s).2 := by
  by_cases hrun : s.deccnt + 1 = s.cfg.decim
  · rw [addSample_run hrun, addSample_run (s := filterView s) hrun]
    exact forChannels_comm (body := channelTick (firProcess x true s).1) filterView (fun _ _ => rfl) s.nch
      { s with deccnt := 0, firh := s.firh.save x }
  · rw [addSample_hold hrun, addSample_hold (s := filterView s) hrun]
    rfl

theorem latch_detectorView (best : Option Nat) (s : State) :
    latch best (detectorView s) = detectorView (latch best s) := by
  cases best <;> rfl

theorem seesOnly_filterView {i : Instr} (hi : filterCommand i = true) : SeesOnly filterView i := by
  intro s
  cases i with
  | reset => exact sameAnswer_whenInit rfl (sameAnswer_respond _ _ _ (pipelineReset_filterView s))
  | adds x => exact sameAnswer_whenInit rfl (sameAnswer_respond _ _ _ (addSample_filterView (numOperand s x) s))
  | iirrsta =>
    exact sameAnswer_whenInit rfl (sameAnswer_respond _ _ _
      (forChannels_comm (body := iirReset) filterView (fun _ _ => rfl) s.nch s))
  | enrsta =>
    exact sameAnswer_whenInit rfl (sameAnswer_respond _ _ _
      (forChannels_comm (body := enReset) filterView (fun _ _ => rfl) s.nch s))
  | firp | firrst | getena => exact sameAnswer_whenInit rfl (sameAnswer_respond _ _ _ rfl)
  | iirp | iirrst | enupd | geten =>
    exact sameAnswer_whenInit rfl (sameAnswer_ite (sameAnswer_respond _ _ _ rfl) (sameAnswer_raise _ s))
  | _ => exact absurd hi Bool.false_ne_true

theorem runCommands_filterView {is : List Instr} (his : ∀ i ∈ is, filterCommand i = true) (s : State) :
    (runCommands is (filterView s)).1 = (runCommands is s).1 :=
  runCommands_view (view := filterView) (fun _ _ => rfl) (fun _ => rfl)
    (fun i hi => seesOnly_filterView (his i hi)) s

theorem seesOnly_detectorView {i : Instr} (hi : detectorCommand i = true) : SeesOnly detectorView i := by
  intro s
  cases i with
  | setch | settf =>
    exact sameAnswer_whenInit rfl (sameAnswer_ite (sameAnswer_respond _ _ _ rfl) (sameAnswer_raise _ s))
  | ign | gethit | gethitch | clrhit | detrst => exact sameAnswer_whenInit rfl (sameAnswer_respond _ _ _ rfl)
  | chk ev =>
    have hheld := sameAnswer_respond (view := detectorView) (u := s) false 0 [] rfl
    exact sameAnswer_whenInit rfl (sameAnswer_ite (sameAnswer_raise _ s) (sameAnswer_ite hheld (sameAnswer_ite hheld
      (sameAnswer_respond _ _ _ (latch_detectorView _ s)))))
  | _ => exact absurd hi Bool.false_ne_true

theorem runCommands_detectorView {is : List Instr} (his : ∀ i ∈ is, detectorCommand i = true) (s : State) :
    (runCommands is (detectorView s)).1 = (runCommands is s).1 :=
  runCommands_view (view := detectorView) (fun _ _ => rfl) (fun _ => rfl)
    (fun i hi => seesOnly_detectorView (his i hi)) s

/-! ### RESET and DETRST against INIT (R218) -/

/-- INIT with the count of a good block is accepted by an uninitialised one of the same parameters. -/
theorem exec_init_same_count {s u : State} (hinitd : s.initd = true) (hwf : s.wf = true) (hu : u.initd = false)
    (hcfg : u.cfg = s.cfg) : exec (.init s.nch) u =
      .next { u with toRegs := initRegs s.cfg s.nch, initd := true, resp := some (okResponse false 0 []) } := by
  obtain ⟨⟨hpos, hmax, _⟩, _⟩ := (regsValid_iff _ _).mp (wf_initd hwf hinitd).2
  rw [← hcfg] at hmax ⊢
  exact exec_init_accepted hu (Bool.and_eq_true_iff.mpr ⟨decide_eq_true hpos, decide_eq_true hmax⟩)

/-- A command keeps a good state good. -/
theorem wf_of_exec {s t : State} {i : Instr} (hwf : s.wf = true) (hexec : exec i s = .next t) : t.wf = true := by
  obtain ⟨u, r, heffect, rfl⟩ := effect_of_exec hexec
  exact heffect.wf hwf

theorem exec_detrst {s : State} (hinitd : s.initd = true) : exec .detrst s = .next { s with
    mask := allChannels s.nch, tf := s.cfg.tfReset, ignore := false, hit := false, hitch := 0
    resp := some (okResponse false 0 []) } :=
  whenInit_true s _ hinitd

section AfterInit

variable {s u t v : State} (hinitd : s.initd = true) (hwf : s.wf = true) (hu : u.initd = false)
  (hcfg : u.cfg = s.cfg) (hinit : exec (.init s.nch) u = .next v)
include hinitd hwf hu hcfg hinit

theorem filterView_reset (ht : exec .reset s = .next t) : filterView t = filterView v := by
  obtain rfl := Host.Outcome.next.inj ((exec_init_same_count hinitd hwf hu hcfg).symm.trans hinit)
  obtain rfl := Host.Outcome.next.inj (((resetCommand s).1 hinitd hwf).symm.trans ht)
  simp only [filterView, hinitd, hcfg]
  rfl

theorem detectorView_detrst (ht : exec .detrst s = .next t) : detectorView t = detectorView v := by
  obtain rfl := Host.Outcome.next.inj ((exec_init_same_count hinitd hwf hu hcfg).symm.trans hinit)
  obtain rfl := Host.Outcome.next.inj ((exec_detrst hinitd).symm.trans ht)
  simp only [detectorView, hinitd, hcfg]
  rfl

end AfterInit

/-- Settles O18: RESET leaves the filter view that INIT leaves and DETRST the detector view, and a second one writes
the values that are already there. -/
theorem resetsMatchInit : Obligations.ResetsMatchInit := by
  unfold Obligations.ResetsMatchInit
  intro s u t v hinitd hwf hu hcfg hinit
  refine ⟨fun ht is his => ?filters, fun ht is his => ?detector, fun ht => ?resetTwice, fun ht => ?detrstTwice⟩
  case filters =>
    rw [← runCommands_filterView his t, filterView_reset hinitd hwf hu hcfg hinit ht, runCommands_filterView his v]
  case detector =>
    rw [← runCommands_detectorView his t, detectorView_detrst hinitd hwf hu hcfg hinit ht,
      runCommands_detectorView his v]
  case resetTwice =>
    have hgood : t.wf = true := wf_of_exec hwf ht
    obtain rfl := Host.Outcome.next.inj (((resetCommand s).1 hinitd hwf).symm.trans ht)
    exact (resetCommand _).1 hinitd hgood
  case detrstTwice =>
    obtain rfl := Host.Outcome.next.inj ((exec_detrst hinitd).symm.trans ht)
    exact exec_detrst hinitd

end Sys2Proof.Machine
